-- ==== Sys2Proof/Word.lean ====
section
/-! DEFINITION. The word types of the core: a byte, the 32-bit SHA-1 word, the 64-bit time and counter, and the
9-bit bus address (00_scope.md R10, R11, R13; 20_memory.md R60). -/

namespace Sys2Proof

/-- A byte, 8 bits (R10). -/
abbrev Byte := BitVec 8

/-- A 32-bit word: the words of SHA-1 (R150), `BIN` (R35) and `CODEN` (R36). -/
abbrev Word32 := BitVec 32

/-- A 64-bit word: `TIME` (R31) and `CTR` (R32). -/
abbrev Word64 := BitVec 64

/-- A byte address of the register space, 9 bits (R60). -/
abbrev Addr := BitVec 9

end Sys2Proof
end

