-- ==== Sys2Proof/Syntax.lean ====
section
/-! DEFINITION. The twelve commands of command set GAA-CMD version 1 (30_encoding.md R94). A command has no operand
fields: every operand is implicit (R90, R92), so every constructor is a bare name. -/

namespace Sys2Proof

/-- The commands, in the order of the opcode table. -/
inductive Instr where
  /-- `B32ENC`, 0x01 (R118). -/
  | b32enc
  /-- `B32ENCP`, 0x02 (R119). -/
  | b32encp
  /-- `B32DEC`, 0x03 (R120). -/
  | b32dec
  /-- `KEYLD`, 0x04 (R140). -/
  | keyld
  /-- `KEYCLR`, 0x05 (R141). -/
  | keyclr
  /-- `SHA1`, 0x06 (R162). -/
  | sha1
  /-- `HMAC`, 0x07 (R163). -/
  | hmac
  /-- `TRUNC`, 0x08 (R186). -/
  | trunc
  /-- `HOTP`, 0x09 (R187). -/
  | hotp
  /-- `TDIV`, 0x0A (R201). -/
  | tdiv
  /-- `CODES`, 0x0B (R205). -/
  | codes
  /-- `VALID`, 0x0C (R209). -/
  | valid
  deriving DecidableEq, Repr

end Sys2Proof
end

