-- ==== Sys2Proof/WellFormed.lean ====
section
/-! DEFINITION. What makes a command well formed. A command has no fields (30_encoding.md R90, R92), so the syntax
admits no ill-formed term: the one check there is is on the raw command byte (R94, R95). -/

namespace Sys2Proof

/-- The one check on raw syntax: a byte that selects a command. "nothing else selects a command" (R94);
0x00 and 0x0D to 0xFF are illegal (R95). -/
def legalCode (b : Byte) : Bool := 0x01 ≤ b.toNat && b.toNat ≤ 0x0C

/-- Every command is well formed: there is no register, immediate or mode field that could hold a bad value (R90). -/
def Instr.wellFormed (i : Instr) : Bool :=
  match i with
  | .b32enc => true
  | .b32encp => true
  | .b32dec => true
  | .keyld => true
  | .keyclr => true
  | .sha1 => true
  | .hmac => true
  | .trunc => true
  | .hotp => true
  | .tdiv => true
  | .codes => true
  | .valid => true

end Sys2Proof
end

