-- ==== Sys2Proof/Decode.lean ====
section
/-! DEFINITION. The decoder and the encoder of format C8 (30_encoding.md R90, R94): one byte, all eight bits take part. -/

namespace Sys2Proof

/-- Why a byte is no command. -/
inductive DecodeError where
  /-- The byte is outside 0x01..0x0C: an illegal command (R95). -/
  | illegalCommand (code : Byte)
  deriving DecidableEq, Repr

/-- The decoder. "A decoder compares the whole byte ... nothing else selects a command" (R94). -/
def decode (b : Byte) : Except DecodeError Instr :=
  match b.toNat with
  | 0x01 => .ok .b32enc
  | 0x02 => .ok .b32encp
  | 0x03 => .ok .b32dec
  | 0x04 => .ok .keyld
  | 0x05 => .ok .keyclr
  | 0x06 => .ok .sha1
  | 0x07 => .ok .hmac
  | 0x08 => .ok .trunc
  | 0x09 => .ok .hotp
  | 0x0A => .ok .tdiv
  | 0x0B => .ok .codes
  | 0x0C => .ok .valid
  | _ => .error (.illegalCommand b)

/-- The encoder, from the opcode map (R94). -/
def encode (i : Instr) : Byte :=
  match i with
  | .b32enc => 0x01
  | .b32encp => 0x02
  | .b32dec => 0x03
  | .keyld => 0x04
  | .keyclr => 0x05
  | .sha1 => 0x06
  | .hmac => 0x07
  | .trunc => 0x08
  | .hotp => 0x09
  | .tdiv => 0x0A
  | .codes => 0x0B
  | .valid => 0x0C

/-- The command byte of an instruction given by its table bits: a command is exactly one byte (R90), bits 7:0 of the
number; bits at `nbits` and above are 0. -/
def tableByte (nbits w : Nat) : Byte := BitVec.ofNat 8 (w % 2 ^ nbits)

/-- The instruction the decoder reads from an instruction whose bits are `w`, numbered as the opcode table numbers
them. -/
def decodeTableWord (nbits w : Nat) : Option Instr :=
  match decode (tableByte nbits w) with
  | .ok i => some i
  | .error _ => none

end Sys2Proof
end

