-- ==== Sys2Proof/Config.lean ====
section
/-! DEFINITION. The parameters of the core (00_scope.md R7, R8). All are fixed for this hardware; the spec leaves no
value open (93_implementation_defined.md, Part 1), so there is no free value here. -/

namespace Sys2Proof.Config

/-- `STEP`, seconds per time step (R7). -/
def step : Nat := 30

/-- `DIGITS`, the length of a code (R7). -/
def digits : Nat := 6

/-- `MODULUS`, 10^6 (R7). -/
def modulus : Nat := 1000000

/-- `DBUF_MAX`, the bytes of the data buffer (R8). `KEY_MAX` is the same number: one bound serves R222's check of `DLEN`. -/
def dbufMax : Nat := 64

/-- `KEY_MAX`, the bytes of secret the key store holds (R8). -/
def keyMax : Nat := 64

/-- `TBUF_MAX`, the bytes of the text buffer (R8). -/
def tbufMax : Nat := 104

end Sys2Proof.Config
end

