-- ==== Sys2Proof/Machine/Bytes.lean ====
section
/-! DEFINITION. Byte sequences and byte order (00_scope.md R12, 20_memory.md R68): `be`, `bytes_be`, the byte of a
register that a byte address selects, and filling a buffer from a sequence. -/

namespace Sys2Proof.Machine

/-- `be(s)`: the big-endian unsigned value of a byte sequence (R12). -/
def be (s : List Byte) : Nat := s.foldl (fun acc b => acc * 256 + b.toNat) 0

/-- `bytes_be(v, n)`: the `n`-byte sequence whose big-endian value is `v mod 256^n` (R12). -/
def bytesBE (v n : Nat) : List Byte :=
  (List.range n).map fun i => BitVec.ofNat 8 (v >>> (8 * (n - 1 - i)))

/-- Byte `i` of a register of `n` bytes laid out big-endian by address: byte 0 is the most significant (R68). -/
def regByte {w : Nat} (n : Nat) (v : BitVec w) (i : Nat) : Byte := v.extractLsb' (8 * (n - 1 - i)) 8

/-- A 64-bit register with its byte `i` (big-endian by address) replaced: "changes that byte only" (R65, R68). -/
def setRegByte (v : Word64) (i : Nat) (b : Byte) : Word64 :=
  (v &&& ~~~((0xFF : Word64) <<< (8 * (7 - i)))) ||| (b.setWidth 64 <<< (8 * (7 - i)))

/-- A buffer of `n` bytes that begins with the sequence `l` and is 0x00 from there on (92_eei_decisions.md D29). -/
def fill (n : Nat) (l : List Byte) : Vector Byte n := Vector.ofFn fun i => l.getD i 0

/-- A buffer of `n` zero bytes. -/
def zeros (n : Nat) : Vector Byte n := Vector.replicate n 0

end Sys2Proof.Machine
end

