-- ==== Sys2Proof/Machine/State.lean ====
section
/-! DEFINITION. The architectural state of the core (10_state.md R20, complete), the inputs still to come, and the
state after reset (R45). -/

namespace Sys2Proof.Machine

/-- A step never stops with a fault: "every rule is total and deterministic" (93_implementation_defined.md, Part 1).
A command's error is a next state (60_exceptions.md R226). So nobody raises a fault, and the type has no constructor
(log 11). -/
inductive Fault
  deriving DecidableEq, Repr

/-- Why a command would have no meaning. -/
inductive Refusal where
  /-- Raised by an arm of `exec` whose command has no meaning yet; no arm is left so. Safe: it claims no effect. -/
  | notModelled (mnemonic : String)
  deriving DecidableEq, Repr

/-- The error kinds of a command (60_exceptions.md R220). -/
inductive ErrorCode where
  /-- The byte written to `CMD` is no command (R95). -/
  | illcmd
  /-- No secret is loaded (R221). -/
  | nokey
  /-- A length operand exceeds its buffer (R222). -/
  | length
  /-- Malformed Base32 text (R223). -/
  | format
  /-- The candidate is not six digits (R224). -/
  | malformed
  deriving DecidableEq, Repr

/-- The input pins in one clock cycle (20_memory.md R61). -/
structure Pins where
  /-- Synchronous reset, active high. -/
  rst : Bool
  /-- 1 in a cycle in which the host makes an access. -/
  sel : Bool
  /-- With `sel`: 1 a write, 0 a read. -/
  we : Bool
  /-- The byte address. -/
  addr : Addr
  /-- The byte written. -/
  wdata : Byte
  deriving DecidableEq, Repr

/-- One turn of the machine's surroundings (00_scope.md R18): a clock cycle of the input pins, or the engine's turn to
complete the running command (30_encoding.md R93). DESIGN CHOICE (log 1). -/
inductive Event where
  | cycle (p : Pins)
  | engine
  deriving DecidableEq, Repr

/-- The state: the items of R20, each under its own name, and the model's own two fields `queue` and `rdata`. -/
structure State where
  /-- `CMD`/`OPC`: the code of the running or last started command (R22). -/
  opc : Byte
  /-- `STATUS`: BUSY, DONE, ERR, MATCH, KEYV in bits 0 to 4 (R25). -/
  status : Byte
  /-- `ERRCODE` (R26). -/
  errcode : Byte
  /-- `CTRL`: IEN in bit 0 (R27). -/
  ctrl : Byte
  /-- `DLEN` (R28). -/
  dlen : Byte
  /-- `TLEN` (R29). -/
  tlen : Byte
  /-- `CLEN` (R30). -/
  clen : Byte
  /-- `KLEN` (R33). -/
  klen : Byte
  /-- `TIME` (R31). -/
  time : Word64
  /-- `CTR` (R32). -/
  ctr : Word64
  /-- `BIN` (R35). -/
  bin : Word32
  /-- `CODEN` (R36). -/
  coden : Word32
  /-- `CAND` (R37). -/
  cand : Vector Byte 8
  /-- `CODE0`, the previous code (R38). -/
  code0 : Vector Byte 6
  /-- `CODE1`, the current code (R38). -/
  code1 : Vector Byte 6
  /-- `CODE2`, the next code (R38). -/
  code2 : Vector Byte 6
  /-- `MAC` (R39). -/
  mac : Vector Byte 20
  /-- `OFFS` (R34). -/
  offs : Byte
  /-- `DBUF` (R40). -/
  dbuf : Vector Byte 64
  /-- `TBUF` (R41). -/
  tbuf : Vector Byte 104
  /-- `KEY`, in no address space (R42). -/
  key : Vector Byte 64
  /-- The model's own: the turns still to come, the next one first. DESIGN CHOICE (log 1). -/
  queue : List Event
  /-- The model's own: what the `rdata` pin showed in the latest clock cycle (R61). DESIGN CHOICE (log 3). -/
  rdata : Byte
  deriving DecidableEq, Repr

/-- The state after reset: every bit of every item of R20 is 0 (R45). No turn is pending and no read has been made
(log 1, log 3). -/
def State.reset : State where
  opc := 0
  status := 0
  errcode := 0
  ctrl := 0
  dlen := 0
  tlen := 0
  clen := 0
  klen := 0
  time := 0
  ctr := 0
  bin := 0
  coden := 0
  cand := Vector.replicate 8 0
  code0 := Vector.replicate 6 0
  code1 := Vector.replicate 6 0
  code2 := Vector.replicate 6 0
  mac := Vector.replicate 20 0
  offs := 0
  dbuf := Vector.replicate 64 0
  tbuf := Vector.replicate 104 0
  key := Vector.replicate 64 0
  queue := []
  rdata := 0

/-- The outcome of `Exec` (30_encoding.md R93): `ok(writes, match)`, the writes given as the state that carries them,
or `error(code)`. -/
inductive CmdResult where
  | ok (written : State) (hit : Bool)
  | error (code : ErrorCode)
  deriving DecidableEq, Repr

end Sys2Proof.Machine
end

