-- ==== Sys2Proof/Machine/Flags.lean ====
section
/-! DEFINITION. The bits of `STATUS` and `CTRL` (10_state.md R25, R27), the `irq` output (60_exceptions.md R230), and
the status updates of a start (30_encoding.md R91) and of a completion (R93). -/

namespace Sys2Proof.Machine

/-- A byte with bit `i` set to `b` and every other bit kept. -/
def putBit (v : Byte) (i : Nat) (b : Bool) : Byte :=
  if b then v ||| (1#8 <<< i) else v &&& ~~~(1#8 <<< i)

/-- `STATUS.BUSY`: a command is running. -/
def State.busy (s : State) : Bool := s.status.getLsbD 0

/-- `STATUS.DONE`: a command has completed since the last start or the last clear. -/
def State.done (s : State) : Bool := s.status.getLsbD 1

/-- `STATUS.ERR`: the last completed command ended in an error. -/
def State.err (s : State) : Bool := s.status.getLsbD 2

/-- `STATUS.MATCH`: the last completed command was VALID and the candidate matched. -/
def State.matched (s : State) : Bool := s.status.getLsbD 3

/-- `STATUS.KEYV`: the key store holds a secret loaded by KEYLD. -/
def State.keyv (s : State) : Bool := s.status.getLsbD 4

/-- `CTRL.IEN`: interrupt enable. -/
def State.ien (s : State) : Bool := s.ctrl.getLsbD 0

/-- The `irq` output: `CTRL.IEN & STATUS.DONE` (R230). -/
def State.irq (s : State) : Bool := s.ien && s.done

/-- `STATUS` after an accepted start: BUSY set, DONE, ERR and MATCH cleared, the rest kept (R91). -/
def startStatus (st : Byte) : Byte :=
  putBit (putBit (putBit (putBit st 3 false) 2 false) 1 false) 0 true

/-- `STATUS` after a completion: MATCH and ERR as given, BUSY cleared, DONE set, the rest kept (R93). -/
def completionStatus (hit err : Bool) (st : Byte) : Byte :=
  putBit (putBit (putBit (putBit st 3 hit) 2 err) 0 false) 1 true

/-- The byte a read of `STATUS` shows: reserved bits 7:5 read as 0 (R25, R64). -/
def statusRead (st : Byte) : Byte := st &&& 0x1F

/-- The byte a read of `CTRL` shows: reserved bits 7:1 read as 0 (R27, R64). -/
def ctrlRead (c : Byte) : Byte := c &&& 0x01

/-- `STATUS` after a host write of `v` to it while idle: bit 1 of `v` clears DONE, nothing else happens (R25, R65). -/
def ackStatus (st v : Byte) : Byte := if v.getLsbD 1 then putBit st 1 false else st

/-- `CTRL` after a host write of `v` to it while idle: only IEN is stored (R27, R65). -/
def ctrlWrite (c v : Byte) : Byte := putBit c 0 (v.getLsbD 0)

end Sys2Proof.Machine
end

