-- ==== Sys2Proof/Machine/Operands.lean ====
section
/-! DEFINITION. The operand forms of the commands. Every operand is implicit (30_encoding.md R92): the valid part of a
buffer, the secret, the candidate. -/

namespace Sys2Proof.Machine

/-- `DBUF[0..DLEN-1]`: the valid part of the data buffer (R28, R40). -/
def State.data (s : State) : List Byte := s.dbuf.toList.take s.dlen.toNat

/-- `TBUF[0..TLEN-1]`: the valid part of the text buffer (R29, R41). -/
def State.text (s : State) : List Byte := s.tbuf.toList.take s.tlen.toNat

/-- `KEY[0..KLEN-1]`: the secret (R33, R42). -/
def State.secret (s : State) : List Byte := s.key.toList.take s.klen.toNat

/-- `CAND[0..5]`: the six bytes of the candidate that a command may read (R37). -/
def State.candidate (s : State) : List Byte := s.cand.toList.take 6

end Sys2Proof.Machine
end

