-- ==== Sys2Proof/Machine/Ops.lean ====
section
/-! DEFINITION. The shared operations: the start of a command, its completion, and the error entry, the one way a
command raises an error (30_encoding.md R91, R93; 60_exceptions.md R220, R226). -/

namespace Sys2Proof.Machine

/-- The value of `ERRCODE` for an error (R220). -/
def ErrorCode.code (e : ErrorCode) : Byte :=
  match e with
  | .illcmd => 0x01
  | .nokey => 0x02
  | .length => 0x03
  | .format => 0x04
  | .malformed => 0x05

/-- The start of a command: a write of `v` to `CMD` while idle (R91). It happens for every `v`, legal or not. -/
def State.start (s : State) (v : Byte) : State :=
  { s with opc := v, status := startStatus s.status, errcode := 0 }

/-- Completion without error, in the state that carries the command's writes (R93). -/
def State.succeed (s : State) (hit : Bool) : State :=
  { s with status := completionStatus hit false s.status, errcode := 0 }

/-- Error entry: ERR, ERRCODE, MATCH = 0, BUSY = 0, DONE = 1 "and **nothing else**" (R226). An error has no return
instruction: the next start clears it (R229, `State.start`). -/
def State.errorEntry (s : State) (e : ErrorCode) : State :=
  { s with status := completionStatus false true s.status, errcode := e.code }

/-- The completion step's atomic update, from the state at the command's start and the outcome of `Exec` (R93). -/
def State.complete (s : State) (r : CmdResult) : State :=
  match r with
  | .ok written hit => written.succeed hit
  | .error e => s.errorEntry e

/-- The outcome of a command's step: always a next state (R93). -/
def finish (s : State) (r : CmdResult) : Host.Outcome State Fault Refusal := .next (s.complete r)

/-- The completion of an illegal command byte: the outcome `error(ILLCMD)` (R95). -/
def execIllegal (s : State) : Host.Outcome State Fault Refusal := finish s (.error .illcmd)

/-- The check that a secret is loaded, the first check of each command that makes it (R221, R227). -/
def withKey (s : State) (k : CmdResult) : CmdResult := if s.keyv then k else .error .nokey

/-- The check that `DLEN` fits `DBUF` (R222). -/
def withData (s : State) (k : CmdResult) : CmdResult :=
  if Config.dbufMax < s.dlen.toNat then .error .length else k

end Sys2Proof.Machine
end

