-- ==== Sys2Proof/Machine/Bus.lean ====
section
/-! DEFINITION. The register space: the address map (10_state.md R20, 20_memory.md R72), the host's byte read and byte
write (R63 to R66), reset (70_reset_and_hazards.md R260) and one clock cycle of the pins (R61). -/

namespace Sys2Proof.Machine

/-- The addressable items of R20 (`KEY` has no address, R42). -/
inductive Item where
  | cmd | status | errcode | ctrl | dlen | tlen | clen | klen | time | ctr | bin | coden
  | cand | code0 | code1 | code2 | mac | offs | dbuf | tbuf
  deriving DecidableEq, Repr

/-- A row of the address map: an item, its first address and its size in bytes. -/
structure MapRow where
  item : Item
  base : Nat
  size : Nat
  deriving DecidableEq, Repr

/-- The address map, fixed and complete (R72). -/
def addressMap : List MapRow :=
  [⟨.cmd, 0x000, 1⟩, ⟨.status, 0x001, 1⟩, ⟨.errcode, 0x002, 1⟩, ⟨.ctrl, 0x003, 1⟩,
   ⟨.dlen, 0x004, 1⟩, ⟨.tlen, 0x005, 1⟩, ⟨.clen, 0x006, 1⟩, ⟨.klen, 0x007, 1⟩,
   ⟨.time, 0x008, 8⟩, ⟨.ctr, 0x010, 8⟩, ⟨.bin, 0x018, 4⟩, ⟨.coden, 0x01C, 4⟩,
   ⟨.cand, 0x020, 8⟩, ⟨.code0, 0x028, 6⟩, ⟨.code1, 0x030, 6⟩, ⟨.code2, 0x038, 6⟩,
   ⟨.mac, 0x040, 20⟩, ⟨.offs, 0x054, 1⟩, ⟨.dbuf, 0x080, 64⟩, ⟨.tbuf, 0x100, 104⟩]

/-- The item at an address and the index of the byte in it; none for an unmapped address (R63). -/
def locate (a : Addr) : Option (Item × Nat) :=
  (addressMap.find? fun r => r.base ≤ a.toNat && a.toNat < r.base + r.size).map
    fun r => (r.item, a.toNat - r.base)

/-- Byte `i` of an item, as a read shows it: numbers big-endian by address (R68), `CMD` as `OPC`, reserved bits 0 (R64). -/
def itemByte (s : State) (it : Item) (i : Nat) : Byte :=
  match it with
  | .cmd => s.opc
  | .status => statusRead s.status
  | .errcode => s.errcode
  | .ctrl => ctrlRead s.ctrl
  | .dlen => s.dlen
  | .tlen => s.tlen
  | .clen => s.clen
  | .klen => s.klen
  | .time => regByte 8 s.time i
  | .ctr => regByte 8 s.ctr i
  | .bin => regByte 4 s.bin i
  | .coden => regByte 4 s.coden i
  | .cand => s.cand.getD i 0
  | .code0 => s.code0.getD i 0
  | .code1 => s.code1.getD i 0
  | .code2 => s.code2.getD i 0
  | .mac => s.mac.getD i 0
  | .offs => s.offs
  | .dbuf => s.dbuf.getD i 0
  | .tbuf => s.tbuf.getD i 0

/-- The byte the idle core shows at an address: `MemRead(a, 1)` (R64); an unmapped address reads as 0x00 (R63). -/
def cellAt (s : State) (a : Addr) : Byte :=
  match locate a with
  | some (it, i) => itemByte s it i
  | none => 0x00

/-- A host read (R64, R66). While busy only `STATUS` and `CMD` show their value. -/
def busRead (s : State) (a : Addr) : Byte :=
  if s.busy then
    if a = 0x000 then s.opc else if a = 0x001 then statusRead s.status else 0x00
  else cellAt s a

/-- A host write of `v` to byte `i` of an item, while idle (R65). -/
def itemWrite (s : State) (it : Item) (i : Nat) (v : Byte) : State :=
  match it with
  | .cmd => s.start v
  | .status => { s with status := ackStatus s.status v }
  | .ctrl => { s with ctrl := ctrlWrite s.ctrl v }
  | .dlen => { s with dlen := v }
  | .tlen => { s with tlen := v }
  | .clen => { s with clen := v }
  | .time => { s with time := setRegByte s.time i v }
  | .ctr => { s with ctr := setRegByte s.ctr i v }
  | .cand => { s with cand := s.cand.setIfInBounds i v }
  | .mac => { s with mac := s.mac.setIfInBounds i v }
  | .dbuf => { s with dbuf := s.dbuf.setIfInBounds i v }
  | .tbuf => { s with tbuf := s.tbuf.setIfInBounds i v }
  | .errcode => s
  | .klen => s
  | .bin => s
  | .coden => s
  | .code0 => s
  | .code1 => s
  | .code2 => s
  | .offs => s

/-- A host write (R65, R66): ignored while busy, and at an unmapped address (R63). -/
def busWrite (s : State) (a : Addr) (v : Byte) : State :=
  if s.busy then s
  else match locate a with
    | some (it, i) => itemWrite s it i v
    | none => s

/-- Reset of the core: every item of R20 to its reset value (R260). The turns still to come are the surroundings', not
the core's, and stay (log 4). -/
def State.resetCore (s : State) : State := { State.reset with queue := s.queue }

/-- The `rdata` pin in a cycle: the byte read, 0x00 without a read (R61) or while `rst` is asserted (R260). -/
def rdataPin (s : State) (p : Pins) : Byte :=
  if !p.rst && p.sel && !p.we then busRead s p.addr else 0x00

/-- What a clock cycle does to the core: reset wins over a write (R61), a read changes nothing (R64). -/
def cycleCore (s : State) (p : Pins) : State :=
  if p.rst then s.resetCore
  else if p.sel && p.we then busWrite s p.addr p.wdata
  else s

/-- One clock cycle of the pins: the core's change, and the `rdata` pin of that cycle recorded (log 3). -/
def busCycle (s : State) (p : Pins) : State := { cycleCore s p with rdata := rdataPin s p }

end Sys2Proof.Machine
end

