-- ==== Sys2Proof/Machine/Base32.lean ====
section
/-! DEFINITION. The Base32 unit (40_base32.md): the code (R110 to R115) and the commands B32ENC, B32ENCP, B32DEC
(R118 to R120). -/

namespace Sys2Proof.Machine

/-- The pad character `=`. -/
def padChar : Byte := 0x3D

/-- `ALPHA[v]`: `A`..`Z` for 0 to 25, `2`..`7` for 26 to 31 (R110). -/
def symbolOf (v : Nat) : Byte := BitVec.ofNat 8 (if v < 26 then 0x41 + v else 0x32 + (v - 26))

/-- `val(c)`, undefined for the other 224 bytes (R110). -/
def symbolVal (c : Byte) : Option Nat :=
  if 0x41 ≤ c.toNat ∧ c.toNat ≤ 0x5A then some (c.toNat - 0x41)
  else if 0x32 ≤ c.toNat ∧ c.toNat ≤ 0x37 then some (c.toNat - 0x32 + 26)
  else none

/-- `L = ceil(8n/5)`, the symbols of an unpadded encoding of `n` bytes (R112). -/
def encodedLength (n : Nat) : Nat := (8 * n + 4) / 5

/-- `b32enc(b)`, the unpadded encoding (R111, R112). -/
def b32enc (b : List Byte) : List Byte :=
  let n := b.length
  let l := encodedLength n
  let x := be b <<< (5 * l - 8 * n)
  (List.range l).map fun j => symbolOf ((x >>> (5 * (l - 1 - j))) % 32)

/-- `b32encp(b)`, the padded encoding (R113). -/
def b32encp (b : List Byte) : List Byte :=
  let e := b32enc b
  e ++ List.replicate ((8 - e.length % 8) % 8) padChar

/-- The number of `=` at the end of a text (R115's `p`). -/
def padCount (t : List Byte) : Nat := (t.reverse.takeWhile (· == padChar)).length

/-- The two length checks of `b32dec`: `d` data symbols followed by `p` pads (R115). -/
def shapeOk (d p : Nat) : Bool :=
  if p = 0 then [0, 2, 4, 5, 7].contains (d % 8)
  else (d + p) % 8 = 0 && [(2, 6), (4, 4), (5, 3), (7, 1)].contains (d % 8, p)

/-- The values of a run of data characters, none if one is outside the alphabet (R115). -/
def symbolVals (t : List Byte) : Option (List Nat) :=
  match t with
  | [] => some []
  | c :: rest =>
    match symbolVal c, symbolVals rest with
    | some v, some vs => some (v :: vs)
    | _, _ => none

/-- `X`: the value of a sequence of 5-bit groups, the first the most significant (R115). -/
def groupsValue (vs : List Nat) : Nat := vs.foldl (fun acc v => acc * 32 + v) 0

/-- `b32dec(t)`; none is the failure `FORMAT` (R115). -/
def b32dec (t : List Byte) : Option (List Byte) :=
  let p := padCount t
  let d := t.length - p
  match symbolVals (t.take d) with
  | none => none
  | some vs =>
    let x := groupsValue vs
    let r := 5 * d % 8
    if shapeOk d p && x % 2 ^ r == 0 then some (bytesBE (x >>> r) (5 * d / 8)) else none

/-- What the two encoders do with a text `t`: it goes to the front of `TBUF`, the rest of `TBUF` is cleared, `TLEN` is
its length (R118). -/
def putText (s : State) (t : List Byte) : CmdResult :=
  .ok { s with tbuf := fill 104 t, tlen := BitVec.ofNat 8 t.length } false

/-- `Exec` of B32ENC (R118). -/
def cmdB32enc (s : State) : CmdResult := withData s (putText s (b32enc s.data))

/-- `Exec` of B32ENCP (R119). -/
def cmdB32encp (s : State) : CmdResult := withData s (putText s (b32encp s.data))

/-- `Exec` of B32DEC (R120). The checks stand in the order of R227: `TLEN`, the format, the size of the result. -/
def cmdB32dec (s : State) : CmdResult :=
  if Config.tbufMax < s.tlen.toNat then .error .length
  else match b32dec s.text with
    | none => .error .format
    | some b =>
      if Config.dbufMax < b.length then .error .length
      else .ok { s with dbuf := fill 64 b, dlen := BitVec.ofNat 8 b.length } false

/-- B32ENC: encode `DBUF[0..DLEN-1]`, unpadded (R118). -/
def execB32enc (s : State) : Host.Outcome State Fault Refusal := finish s (cmdB32enc s)

/-- B32ENCP: encode `DBUF[0..DLEN-1]`, padded (R119). -/
def execB32encp (s : State) : Host.Outcome State Fault Refusal := finish s (cmdB32encp s)

/-- B32DEC: decode `TBUF[0..TLEN-1]` (R120). -/
def execB32dec (s : State) : Host.Outcome State Fault Refusal := finish s (cmdB32dec s)

end Sys2Proof.Machine
end

