-- ==== Sys2Proof/Machine/Sha1.lean ====
section
/-! DEFINITION. SHA-1 (42_sha1_hmac.md R150 to R156), HMAC-SHA1 (R160), and the commands SHA1 (R162) and HMAC (R163). -/

namespace Sys2Proof.Machine

/-- `pad(m)`: 0x80, zeros up to 56 modulo 64, the bit length as 8 big-endian bytes (R151). -/
def sha1Pad (m : List Byte) : List Byte :=
  m ++ [0x80] ++ List.replicate ((119 - m.length % 64) % 64) 0x00 ++ bytesBE (8 * m.length) 8

/-- The first `n` blocks of 64 bytes of a padded message, in order (R152). -/
def sha1Blocks (n : Nat) (m : List Byte) : List (List Byte) :=
  (List.range n).map fun i => (m.drop (64 * i)).take 64

/-- The sixteen 32-bit words of a block, each big-endian (R152). -/
def blockWords (b : List Byte) : List Word32 :=
  (List.range 16).map fun j => BitVec.ofNat 32 (be ((b.drop (4 * j)).take 4))

/-- The next schedule word, from the words so far with the newest first: `W[t-3]` is at index 2 (R154). -/
def nextW (newestFirst : List Word32) : Word32 :=
  (newestFirst.getD 2 0 ^^^ newestFirst.getD 7 0 ^^^ newestFirst.getD 13 0 ^^^ newestFirst.getD 15 0).rotateLeft 1

/-- `n` more schedule words on top of the words so far, the newest first (R154). -/
def extendW (n : Nat) (newestFirst : List Word32) : List Word32 :=
  match n with
  | 0 => newestFirst
  | k + 1 => extendW k (nextW newestFirst :: newestFirst)

/-- The eighty schedule words of a block, `W[0]` first (R154). -/
def schedule (b : List Byte) : List Word32 := (extendW 64 (blockWords b).reverse).reverse

/-- Five 32-bit words: the chaining value `H0..H4` (R153), and the working words `a..e` (R156). -/
structure Five where
  a : Word32
  b : Word32
  c : Word32
  d : Word32
  e : Word32
  deriving DecidableEq, Repr

/-- The initial chaining value (R153). -/
def sha1Init : Five := ⟨0x67452301, 0xEFCDAB89, 0x98BADCFE, 0x10325476, 0xC3D2E1F0⟩

/-- `f_t(b, c, d)`: Ch, Parity, Maj, Parity by round (R155). -/
def roundFn (t : Nat) (b c d : Word32) : Word32 :=
  if t < 20 then (b &&& c) ||| (~~~b &&& d)
  else if t < 40 then b ^^^ c ^^^ d
  else if t < 60 then (b &&& c) ||| (b &&& d) ||| (c &&& d)
  else b ^^^ c ^^^ d

/-- `K_t` (R155). -/
def roundK (t : Nat) : Word32 :=
  if t < 20 then 0x5A827999
  else if t < 40 then 0x6ED9EBA1
  else if t < 60 then 0x8F1BBCDC
  else 0xCA62C1D6

/-- One round, a simultaneous update of the five working words (R156). -/
def sha1Round (t : Nat) (w : Word32) (h : Five) : Five where
  a := h.a.rotateLeft 5 + roundFn t h.b h.c h.d + h.e + roundK t + w
  b := h.a
  c := h.b.rotateLeft 30
  d := h.c
  e := h.d

/-- The rounds from number `t` on, one for each schedule word (R156). -/
def sha1Rounds (t : Nat) (ws : List Word32) (h : Five) : Five :=
  match ws with
  | [] => h
  | w :: rest => sha1Rounds (t + 1) rest (sha1Round t w h)

/-- The word-wise sum modulo 2^32 at the end of a block (R156). -/
def Five.add (x y : Five) : Five := ⟨x.a + y.a, x.b + y.b, x.c + y.c, x.d + y.d, x.e + y.e⟩

/-- Compression of one block (R156). -/
def sha1Compress (h : Five) (b : List Byte) : Five := h.add (sha1Rounds 0 (schedule b) h)

/-- The digest bytes of a chaining value: each word big-endian, `H0` first (R156). -/
def Five.bytes (h : Five) : List Byte :=
  bytesBE h.a.toNat 4 ++ bytesBE h.b.toNat 4 ++ bytesBE h.c.toNat 4 ++ bytesBE h.d.toNat 4 ++ bytesBE h.e.toNat 4

/-- `SHA1(m)` (R156). -/
def sha1 (m : List Byte) : List Byte :=
  ((sha1Blocks ((sha1Pad m).length / 64) (sha1Pad m)).foldl sha1Compress sha1Init).bytes

/-- The key zero-filled on the right to 64 bytes, with every byte XORed with `x` (R160). -/
def keyPad (x : Byte) (k : List Byte) : List Byte :=
  (k ++ List.replicate (64 - k.length) 0x00).map (· ^^^ x)

/-- `HMAC_SHA1(k, m)` (R160). -/
def hmacSha1 (k m : List Byte) : List Byte := sha1 (keyPad 0x5C k ++ sha1 (keyPad 0x36 k ++ m))

/-- `Exec` of SHA1 (R162). -/
def cmdSha1 (s : State) : CmdResult := withData s (.ok { s with mac := fill 20 (sha1 s.data) } false)

/-- `Exec` of HMAC (R163): the key check comes before the length check (R227). -/
def cmdHmac (s : State) : CmdResult :=
  withKey s (withData s (.ok { s with mac := fill 20 (hmacSha1 s.secret s.data) } false))

/-- SHA1: the digest of `DBUF[0..DLEN-1]` (R162). -/
def execSha1 (s : State) : Host.Outcome State Fault Refusal := finish s (cmdSha1 s)

/-- HMAC: the MAC of `DBUF[0..DLEN-1]` under the secret (R163). -/
def execHmac (s : State) : Host.Outcome State Fault Refusal := finish s (cmdHmac s)

end Sys2Proof.Machine
end

