-- ==== Sys2Proof/Machine/Hotp.lean ====
section
/-! DEFINITION. The HOTP derivation (43_hotp.md): counter packing, dynamic truncation, reduction and rendering (R180 to
R185), and the commands TRUNC (R186) and HOTP (R187). -/

namespace Sys2Proof.Machine

/-- `pack64(c)`: eight bytes, most significant first; every 64-bit pattern is a legal counter (R180). -/
def pack64 (c : Word64) : List Byte := bytesBE c.toNat 8

/-- The truncation offset, the low 4 bits of the last byte (R181). -/
def truncOffset (mac : Vector Byte 20) : Byte := mac[19] &&& 0x0F

/-- `binary_code`: the four bytes at the offset, big-endian, without their top bit (R181). -/
def binaryCode (mac : Vector Byte 20) : Word32 :=
  let o := (truncOffset mac).toNat
  BitVec.ofNat 32 (be [mac.getD o 0, mac.getD (o + 1) 0, mac.getD (o + 2) 0, mac.getD (o + 3) 0]) &&& 0x7FFFFFFF

/-- The code of a truncated value: its remainder modulo 10^6 (R182). -/
def reduce (bin : Word32) : Nat := bin.toNat % Config.modulus

/-- `digits6(n)`: six ASCII digits, most significant first, leading zeros kept (R184). -/
def digits6 (n : Nat) : Vector Byte 6 :=
  Vector.ofFn fun i => BitVec.ofNat 8 (0x30 + n / 10 ^ (5 - i.val) % 10)

/-- What steps 3 and 4 of the derivation give for a MAC: offset, truncated value, code, rendered code (R181 to R184). -/
structure Truncated where
  offset : Byte
  bin : Word32
  code : Nat
  digits : Vector Byte 6
  deriving DecidableEq, Repr

/-- Steps 3 and 4 (R181 to R184). -/
def truncate (mac : Vector Byte 20) : Truncated where
  offset := truncOffset mac
  bin := binaryCode mac
  code := reduce (binaryCode mac)
  digits := digits6 (reduce (binaryCode mac))

/-- The MAC of a counter under a key, steps 1 and 2 (R180, R185). -/
def counterMac (k : List Byte) (c : Word64) : Vector Byte 20 := fill 20 (hmacSha1 k (pack64 c))

/-- `hotp(k, c)`, the six-character code (R185). -/
def hotp (k : List Byte) (c : Word64) : Vector Byte 6 := (truncate (counterMac k c)).digits

/-- The result registers of a truncation, `OFFS`, `BIN`, `CODEN` and `CODE1`, written from a MAC (R186, R187, R205). -/
def State.putTruncation (s : State) (mac : Vector Byte 20) : State :=
  { s with
    offs := (truncate mac).offset
    bin := (truncate mac).bin
    coden := BitVec.ofNat 32 (truncate mac).code
    code1 := (truncate mac).digits }

/-- `Exec` of TRUNC (R186): it needs no key and never fails. -/
def cmdTrunc (s : State) : CmdResult := .ok (s.putTruncation s.mac) false

/-- `Exec` of HOTP (R187). -/
def cmdHotp (s : State) : CmdResult :=
  withKey s (.ok ({ s with mac := counterMac s.secret s.ctr }.putTruncation (counterMac s.secret s.ctr)) false)

/-- TRUNC: truncate whatever `MAC` holds (R186). -/
def execTrunc (s : State) : Host.Outcome State Fault Refusal := finish s (cmdTrunc s)

/-- HOTP: the code of the counter in `CTR` (R187). -/
def execHotp (s : State) : Host.Outcome State Fault Refusal := finish s (cmdHotp s)

end Sys2Proof.Machine
end

