-- ==== Sys2Proof/Machine/Key.lean ====
section
/-! DEFINITION. The key store (41_key.md): KEYLD (R140) and KEYCLR (R141). -/

namespace Sys2Proof.Machine

/-- `Exec` of KEYLD (R140): the secret is the bytes exactly as they are in `DBUF`, the rest of `KEY` is zeroed. -/
def cmdKeyld (s : State) : CmdResult :=
  withData s (.ok { s with key := fill 64 s.data, klen := s.dlen, status := putBit s.status 4 true } false)

/-- `Exec` of KEYCLR (R141): the secret and every register that can hold a value derived from it are zeroed. -/
def cmdKeyclr (s : State) : CmdResult :=
  .ok { s with
    key := zeros 64
    klen := 0
    status := putBit s.status 4 false
    mac := zeros 20
    offs := 0
    bin := 0
    coden := 0
    code0 := zeros 6
    code1 := zeros 6
    code2 := zeros 6 } false

/-- KEYLD: load the secret (R140). -/
def execKeyld (s : State) : Host.Outcome State Fault Refusal := finish s (cmdKeyld s)

/-- KEYCLR: remove the secret (R141). -/
def execKeyclr (s : State) : Host.Outcome State Fault Refusal := finish s (cmdKeyclr s)

end Sys2Proof.Machine
end

