-- ==== Sys2Proof/Machine/Totp.lean ====
section
/-! DEFINITION. Time counter, window and validation (44_totp.md R200 to R209): TDIV, CODES, VALID. -/

namespace Sys2Proof.Machine

/-- `tc(t) = t div 30`, unsigned floor division (R200, R202). -/
def timeCounter (t : Word64) : Word64 := BitVec.ofNat 64 (t.toNat / Config.step)

/-- The window counters in the order `k = -1, 0, +1`, modulo 2^64 (R203). -/
def windowCounters (base : Word64) : List Word64 := [base - 1, base, base + 1]

/-- An ASCII digit (R207). -/
def isDigit (b : Byte) : Bool := 0x30 ≤ b.toNat && b.toNat ≤ 0x39

/-- The candidate is well formed: six characters, all of them digits (R207). With another length the bytes are not
looked at. -/
def State.wellFormedCandidate (s : State) : Bool := s.clen == 6 && s.candidate.all isDigit

/-- `eq6(a, b)`: all six bytes are equal (R208). -/
def eq6 (cand : List Byte) (code : Vector Byte 6) : Bool := cand == code.toList

/-- The candidate equals one of the three window codes; all three are computed, in order (R204, R209). -/
def State.candidateMatches (s : State) : Bool :=
  (windowCounters (timeCounter s.time)).foldl (fun hit c => hit || eq6 s.candidate (hotp s.secret c)) false

/-- `Exec` of TDIV (R201). -/
def cmdTdiv (s : State) : CmdResult := .ok { s with ctr := timeCounter s.time } false

/-- `Exec` of CODES (R205): previous, current and next code; the other result registers take the values of `k = 0`. -/
def cmdCodes (s : State) : CmdResult :=
  let base := timeCounter s.time
  let mac := counterMac s.secret base
  withKey s (.ok
    ({ s with
        ctr := base
        code0 := hotp s.secret (base - 1)
        code2 := hotp s.secret (base + 1)
        mac := mac }.putTruncation mac) false)

/-- `Exec` of VALID (R209): it writes no register; its result is the match. -/
def cmdValid (s : State) : CmdResult :=
  withKey s (if s.wellFormedCandidate then .ok s s.candidateMatches else .error .malformed)

/-- TDIV: the time counter of `TIME` (R201). -/
def execTdiv (s : State) : Host.Outcome State Fault Refusal := finish s (cmdTdiv s)

/-- CODES: the three codes around `TIME` (R205). -/
def execCodes (s : State) : Host.Outcome State Fault Refusal := finish s (cmdCodes s)

/-- VALID: is the candidate one of the three codes around `TIME` (R209). -/
def execValid (s : State) : Host.Outcome State Fault Refusal := finish s (cmdValid s)

end Sys2Proof.Machine
end

