-- ==== Sys2Proof/Machine/Dispatch.lean ====
section
/-! DEFINITION. One arm per command: the engine's step for it, `Exec` and the completion update (30_encoding.md R93). -/

namespace Sys2Proof.Machine

def exec (i : Instr) (s : State) : Host.Outcome State Fault Refusal :=
  match i with
  | .b32enc => Sys2Proof.Machine.execB32enc s
  | .b32encp => Sys2Proof.Machine.execB32encp s
  | .b32dec => Sys2Proof.Machine.execB32dec s
  | .keyld => Sys2Proof.Machine.execKeyld s
  | .keyclr => Sys2Proof.Machine.execKeyclr s
  | .sha1 => Sys2Proof.Machine.execSha1 s
  | .hmac => Sys2Proof.Machine.execHmac s
  | .trunc => Sys2Proof.Machine.execTrunc s
  | .hotp => Sys2Proof.Machine.execHotp s
  | .tdiv => Sys2Proof.Machine.execTdiv s
  | .codes => Sys2Proof.Machine.execCodes s
  | .valid => Sys2Proof.Machine.execValid s

end Sys2Proof.Machine
end

