-- ==== Sys2Proof/Machine/Step.lean ====
section
/-! DEFINITION. One step of the machine: the next turn of the queue, a clock cycle of the pins or the engine's turn
(00_scope.md R18; log 1). -/

namespace Sys2Proof.Machine

/-- The engine's step while busy: the running command is the one `OPC` holds (30_encoding.md R93); a byte that is no
command ends with ILLCMD (R95). -/
def engineStep (s : State) : Host.Outcome State Fault Refusal :=
  match decode s.opc with
  | .ok i => exec i s
  | .error _ => execIllegal s

/-- The engine's turn: "enabled exactly when `STATUS.BUSY = 1`" (R93); an idle core lets it pass (log 2). -/
def engineTurn (s : State) : Host.Outcome State Fault Refusal := if s.busy then engineStep s else .next s

/-- One step. With no turn pending the engine has the turn, so a started command completes (R93; log 1). -/
def step (s : State) : Host.Outcome State Fault Refusal :=
  match s.queue with
  | [] => engineTurn s
  | .engine :: rest => engineTurn { s with queue := rest }
  | .cycle p :: rest => .next (busCycle { s with queue := rest } p)

/-- The engine has the very next turn: with no turn pending it has it anyway. -/
def State.engineNext (s : State) : State :=
  match s.queue with
  | [] => s
  | _ :: _ => { s with queue := .engine :: s.queue }

/-- `s` with the instruction of table bits `w` started, as a write to `CMD` starts it (R91), and the engine to move next:
the very next step runs it (log 5). -/
def State.withFetchWord (s : State) (nbits w : Nat) : State := (s.start (tableByte nbits w)).engineNext

end Sys2Proof.Machine
end

