-- ==== Sys2Proof/Machine/HostNotation.lean ====
section
/-! DEFINITION. The host notation of 30_encoding.md R99 and R100 as turns of the queue: each statement is bus operations
`(we, addr, wdata)`. -/

namespace Sys2Proof.Machine.HostOp

/-- `wr A, V`: one byte write (R99). -/
def wr (a : Nat) (v : Byte) : List Event := [.cycle ⟨false, true, true, BitVec.ofNat 9 a, v⟩]

/-- `rd A`: one byte read (R99). -/
def rd (a : Nat) : List Event := [.cycle ⟨false, true, false, BitVec.ofNat 9 a, 0⟩]

/-- `cmd 0xNN`: a write of a raw byte to `CMD` (R99). -/
def cmdByte (v : Byte) : List Event := wr 0x000 v

/-- `cmd M`: the write of the code of `M` to `CMD` (R99). -/
def cmd (i : Instr) : List Event := cmdByte (encode i)

/-- `wait` under one schedule: the command completes, and the one read of `STATUS` that ends the wait follows. R100 lets
any number of earlier reads stand before the completion (log 13). -/
def wait : List Event := .engine :: rd 0x001

/-- `wrb A, h0 h1 ... hn`, and `wrs A, "text"` with the text as its ASCII bytes (R100). -/
def wrb (a : Nat) (bs : List Byte) : List Event :=
  match bs with
  | [] => []
  | b :: rest => wr a b ++ wrb (a + 1) rest

/-- `wr64 A, V`: eight byte writes, most significant byte first (R100). -/
def wr64 (a v : Nat) : List Event := wrb a (bytesBE v 8)

/-- `run M` (R100). -/
def run (i : Instr) : List Event := cmd i ++ wait

/-- `ack`: clear DONE (R100). -/
def ack : List Event := wr 0x001 0x02

/-- `rds A, n`: a run of `n` reads (R100). -/
def rds (a n : Nat) : List Event := (List.range n).flatMap fun i => rd (a + i)

/-- A cycle in which `rst` is asserted (70_reset_and_hazards.md R260). -/
def reset : List Event := [.cycle ⟨true, false, false, 0, 0⟩]

end Sys2Proof.Machine.HostOp
end

