-- ==== Sys2Proof/Safety.lean ====
section
/-! DEFINITION. What a good state is (10_state.md R44), what a completed step is, and the terms the claims use. -/

namespace Sys2Proof.Machine

/-- A code register holds no code (six zero bytes) or six ASCII digits (R44 item 7). -/
abbrev codeRegOk (r : Vector Byte 6) : Prop := r = zeros 6 ∨ ∀ i : Fin 6, isDigit r[i] = true

/-- The invariants of R44, item by item. -/
structure Inv (s : State) : Prop where
  /-- Item 1: reserved bits are 0. -/
  reserved : s.status.toNat < 32 ∧ s.ctrl.toNat < 2 ∧ s.offs.toNat < 16
  /-- Item 2: a busy core shows no result. -/
  busyClear : s.busy = true → s.done = false ∧ s.err = false ∧ s.matched = false ∧ s.errcode = 0
  /-- Item 3: ERR tells whether `ERRCODE` is not 0, and only the five codes occur. -/
  errIff : (s.err = true ↔ s.errcode ≠ 0) ∧ s.errcode.toNat ≤ 5
  /-- Item 4: MATCH is VALID's, and without error. -/
  matchValid : s.matched = true → s.err = false ∧ s.opc = encode .valid
  /-- Item 5: the key store is zero beyond its length, and empty without KEYV. -/
  keyStore : s.klen.toNat ≤ 64 ∧ (∀ i : Fin 64, s.klen.toNat ≤ i.val → s.key[i] = 0) ∧
    (s.keyv = false → s.klen = 0 ∧ s.key = zeros 64)
  /-- Item 6: ranges of the truncation results. -/
  ranges : s.bin.toNat < 2 ^ 31 ∧ s.coden.toNat ≤ 999999
  /-- Item 7: code registers. -/
  codes : codeRegOk s.code0 ∧ codeRegOk s.code1 ∧ codeRegOk s.code2

/-- The states a run reaches: reset with any turns to come, and whatever steps follow (00_scope.md R18). -/
inductive Reachable : State → Prop where
  | reset (turns : List Event) : Reachable { State.reset with queue := turns }
  | step (s t : State) (hs : Reachable s) (h : step s = .next t) : Reachable t

/-- `k` steps end in a state that satisfies `P`. -/
def ReachesIn (k : Nat) (s : State) (P : State → Prop) : Prop :=
  match k with
  | 0 => P s
  | n + 1 => ∃ t, step s = .next t ∧ ReachesIn n t P

/-- The status update of a completion, flag by flag (30_encoding.md R93): `t` is idle and done, with the given MATCH,
ERR, `ERRCODE` and KEYV; the reserved bits are as in `s`. -/
structure Completed (s t : State) (hit err : Bool) (code : Byte) (keyv : Bool) : Prop where
  busy : t.busy = false
  done : t.done = true
  hit : t.matched = hit
  err : t.err = err
  errcode : t.errcode = code
  keyv : t.keyv = keyv
  reserved : ∀ j, 5 ≤ j → j < 8 → t.status.getLsbD j = s.status.getLsbD j

/-- The next step completes the running command: a command runs, and the engine has the turn (30_encoding.md R93). -/
def CompletesNow (s : State) : Prop := s.busy = true ∧ (s.queue = [] ∨ ∃ rest, s.queue = .engine :: rest)

/-- The next step is a cycle with `rst` asserted (70_reset_and_hazards.md R260). -/
def ResetsNow (s : State) : Prop := ∃ p rest, s.queue = .cycle p :: rest ∧ p.rst = true

/-- The next step is an accepted write of `v` to address `a`: no command runs, and `rst` is not asserted (20_memory.md
R65). -/
def WritesNow (s : State) (a : Addr) (v : Byte) : Prop :=
  ∃ rest, s.queue = .cycle ⟨false, true, true, a, v⟩ :: rest ∧ s.busy = false

/-- The addresses that hold no state, as 20_memory.md R63 lists them. -/
abbrev Unmapped (a : Addr) : Prop :=
  a = 0x02E ∨ a = 0x02F ∨ a = 0x036 ∨ a = 0x037 ∨ a = 0x03E ∨ a = 0x03F ∨
  (0x055 ≤ a.toNat ∧ a.toNat ≤ 0x07F) ∨ (0x0C0 ≤ a.toNat ∧ a.toNat ≤ 0x0FF) ∨ 0x168 ≤ a.toNat

/-- The bytes of the RW items that only store what is written: DLEN, TLEN, CLEN, TIME, CTR, CAND, MAC, DBUF, TBUF
(20_memory.md R65). -/
abbrev PlainWritable (a : Addr) : Prop :=
  (0x004 ≤ a.toNat ∧ a.toNat ≤ 0x006) ∨ (0x008 ≤ a.toNat ∧ a.toNat ≤ 0x017) ∨ (0x020 ≤ a.toNat ∧ a.toNat ≤ 0x027) ∨
  (0x040 ≤ a.toNat ∧ a.toNat ≤ 0x053) ∨ (0x080 ≤ a.toNat ∧ a.toNat ≤ 0x0BF) ∨ (0x100 ≤ a.toNat ∧ a.toNat ≤ 0x167)

/-- The bytes of the RO items: ERRCODE, KLEN, BIN, CODEN, CODE0, CODE1, CODE2, OFFS (20_memory.md R65). -/
abbrev ReadOnly (a : Addr) : Prop :=
  a = 0x002 ∨ a = 0x007 ∨ (0x018 ≤ a.toNat ∧ a.toNat ≤ 0x01F) ∨ (0x028 ≤ a.toNat ∧ a.toNat ≤ 0x02D) ∨
  (0x030 ≤ a.toNat ∧ a.toNat ≤ 0x035) ∨ (0x038 ≤ a.toNat ∧ a.toNat ≤ 0x03D) ∨ a = 0x054

/-- The addresses whose byte a command's completion may change besides `STATUS` and `ERRCODE`: the "written by" column
of 10_state.md R20, as address ranges. -/
abbrev CommandWrites (i : Instr) (a : Addr) : Prop :=
  let n := a.toNat
  let tbuf := n = 0x005 ∨ (0x100 ≤ n ∧ n ≤ 0x167)
  let mac := 0x040 ≤ n ∧ n ≤ 0x053
  let truncation := (0x018 ≤ n ∧ n ≤ 0x01F) ∨ (0x030 ≤ n ∧ n ≤ 0x035) ∨ n = 0x054
  let ctr := 0x010 ≤ n ∧ n ≤ 0x017
  let otherCodes := (0x028 ≤ n ∧ n ≤ 0x02D) ∨ (0x038 ≤ n ∧ n ≤ 0x03D)
  match i with
  | .b32enc => tbuf
  | .b32encp => tbuf
  | .b32dec => n = 0x004 ∨ (0x080 ≤ n ∧ n ≤ 0x0BF)
  | .keyld => n = 0x007
  | .keyclr => n = 0x007 ∨ mac ∨ truncation ∨ otherCodes
  | .sha1 => mac
  | .hmac => mac
  | .trunc => truncation
  | .hotp => mac ∨ truncation
  | .tdiv => ctr
  | .codes => ctr ∨ mac ∨ truncation ∨ otherCodes
  | .valid => False

/-- Two states agree on the items a command reads (30_encoding.md R92). -/
def SameOperands (i : Instr) (s u : State) : Prop :=
  let data := s.dlen = u.dlen ∧ ∀ j, j < s.dlen.toNat → s.dbuf.getD j 0 = u.dbuf.getD j 0
  let text := s.tlen = u.tlen ∧ ∀ j, j < s.tlen.toNat → s.tbuf.getD j 0 = u.tbuf.getD j 0
  let key := s.keyv = u.keyv ∧ s.klen = u.klen ∧ s.key = u.key
  match i with
  | .b32enc => data
  | .b32encp => data
  | .b32dec => text
  | .keyld => data
  | .keyclr => True
  | .sha1 => data
  | .hmac => key ∧ data
  | .trunc => s.mac = u.mac
  | .hotp => key ∧ s.ctr = u.ctr
  | .tdiv => s.time = u.time
  | .codes => key ∧ s.time = u.time
  | .valid => key ∧ s.time = u.time ∧ s.clen = u.clen ∧ ∀ j, j < 6 → s.cand.getD j 0 = u.cand.getD j 0

/-- Two states agree on the items a command writes on success (30_encoding.md R92). -/
def SameResults (i : Instr) (t v : State) : Prop :=
  let text := t.tbuf = v.tbuf ∧ t.tlen = v.tlen
  let truncation := t.offs = v.offs ∧ t.bin = v.bin ∧ t.coden = v.coden ∧ t.code1 = v.code1
  let key := t.key = v.key ∧ t.klen = v.klen ∧ t.keyv = v.keyv
  match i with
  | .b32enc => text
  | .b32encp => text
  | .b32dec => t.dbuf = v.dbuf ∧ t.dlen = v.dlen
  | .keyld => key
  | .keyclr => key ∧ t.mac = v.mac ∧ truncation ∧ t.code0 = v.code0 ∧ t.code2 = v.code2
  | .sha1 => t.mac = v.mac
  | .hmac => t.mac = v.mac
  | .trunc => truncation
  | .hotp => t.mac = v.mac ∧ truncation
  | .tdiv => t.ctr = v.ctr
  | .codes => t.ctr = v.ctr ∧ t.mac = v.mac ∧ truncation ∧ t.code0 = v.code0 ∧ t.code2 = v.code2
  | .valid => True

/-- `t` is `s` but for the status update and the items a command writes on success (30_encoding.md R92). -/
def ChangesOnlyResults (i : Instr) (s t : State) : Prop :=
  match i with
  | .b32enc => t = { s with status := t.status, errcode := t.errcode, tbuf := t.tbuf, tlen := t.tlen }
  | .b32encp => t = { s with status := t.status, errcode := t.errcode, tbuf := t.tbuf, tlen := t.tlen }
  | .b32dec => t = { s with status := t.status, errcode := t.errcode, dbuf := t.dbuf, dlen := t.dlen }
  | .keyld => t = { s with status := t.status, errcode := t.errcode, key := t.key, klen := t.klen }
  | .keyclr => t = { s with
      status := t.status, errcode := t.errcode, key := t.key, klen := t.klen, mac := t.mac, offs := t.offs, bin := t.bin
      coden := t.coden, code0 := t.code0, code1 := t.code1, code2 := t.code2 }
  | .sha1 => t = { s with status := t.status, errcode := t.errcode, mac := t.mac }
  | .hmac => t = { s with status := t.status, errcode := t.errcode, mac := t.mac }
  | .trunc => t = { s with
      status := t.status, errcode := t.errcode, offs := t.offs, bin := t.bin, coden := t.coden, code1 := t.code1 }
  | .hotp => t = { s with
      status := t.status, errcode := t.errcode, mac := t.mac, offs := t.offs, bin := t.bin, coden := t.coden
      code1 := t.code1 }
  | .tdiv => t = { s with status := t.status, errcode := t.errcode, ctr := t.ctr }
  | .codes => t = { s with
      status := t.status, errcode := t.errcode, ctr := t.ctr, mac := t.mac, offs := t.offs, bin := t.bin
      coden := t.coden, code0 := t.code0, code1 := t.code1, code2 := t.code2 }
  | .valid => t = { s with status := t.status, errcode := t.errcode }

/-- Bit `n` of a byte sequence taken as one bit string, byte 0 first, the most significant bit of a byte first; 0 beyond
its end (40_base32.md R111). -/
def bitAt (b : List Byte) (n : Nat) : Bool := (b.getD (n / 8) 0).getLsbD (7 - n % 8)

/-- `ALPHA`, written out (40_base32.md R110). -/
def alphabet : List Byte :=
  [0x41, 0x42, 0x43, 0x44, 0x45, 0x46, 0x47, 0x48, 0x49, 0x4A, 0x4B, 0x4C, 0x4D, 0x4E, 0x4F, 0x50,
   0x51, 0x52, 0x53, 0x54, 0x55, 0x56, 0x57, 0x58, 0x59, 0x5A, 0x32, 0x33, 0x34, 0x35, 0x36, 0x37]

/-- The texts that stand for bytes, by shape (40_base32.md R115, R116): data symbols of the alphabet, then `p` pads; an
unpadded length that comes from whole bytes, or a valid amount of padding to a multiple of 8; and zero left-over bits in
the last data symbol. -/
def AcceptedText (t : List Byte) : Prop :=
  ∃ (vs : List Nat) (p : Nat),
    (∀ v ∈ vs, v < 32) ∧
    t = (vs.map fun v => alphabet.getD v 0) ++ List.replicate p 0x3D ∧
    ((p = 0 ∧ (vs.length % 8 = 0 ∨ vs.length % 8 = 2 ∨ vs.length % 8 = 4 ∨ vs.length % 8 = 5 ∨ vs.length % 8 = 7)) ∨
      (vs.length % 8 = 2 ∧ p = 6) ∨ (vs.length % 8 = 4 ∧ p = 4) ∨ (vs.length % 8 = 5 ∧ p = 3) ∨
      (vs.length % 8 = 7 ∧ p = 1)) ∧
    vs.getLastD 0 % 2 ^ (5 * vs.length % 8) = 0

/-- The decimal value of a rendered code, most significant digit first (43_hotp.md R184). -/
def decimalValue (r : Vector Byte 6) : Nat := r.toList.foldl (fun acc b => acc * 10 + (b.toNat - 0x30)) 0

end Sys2Proof.Machine
end

