-- ==== Sys2Proof/Certificates/Slice0/Obligations.lean ====
section
/-! DEFINITION. The statements for the provers. Each docstring names the rule of spec/ it formalises, in whole or in
part; OBLIGATIONS.json cites a rule only where the Lean states it whole. -/

open Sys2Proof Sys2Proof.Machine

/-! ### Encoding -/

/-- The opcode map of R94, row by row, and the refusal of neighbours (R95). -/
def Obligations.CommandBytesDecode : Prop :=
  decode 0x01 = .ok .b32enc ∧ decode 0x02 = .ok .b32encp ∧ decode 0x03 = .ok .b32dec ∧ decode 0x04 = .ok .keyld ∧
  decode 0x05 = .ok .keyclr ∧ decode 0x06 = .ok .sha1 ∧ decode 0x07 = .ok .hmac ∧ decode 0x08 = .ok .trunc ∧
  decode 0x09 = .ok .hotp ∧ decode 0x0A = .ok .tdiv ∧ decode 0x0B = .ok .codes ∧ decode 0x0C = .ok .valid ∧
  decode 0x00 = .error (.illegalCommand 0x00) ∧ decode 0x0D = .error (.illegalCommand 0x0D) ∧
  decode 0xFF = .error (.illegalCommand 0xFF)

/-- Decoding an encoded command gives it back, a byte that decodes is the encoding of what it decodes to, and exactly
the bytes 0x01 to 0x0C decode (R90, R94, R95). -/
def Obligations.DecodeAndEncodeAgree : Prop :=
  (∀ i : Instr, decode (encode i) = .ok i) ∧
  (∀ (b : Byte) (i : Instr), decode b = .ok i → encode i = b) ∧
  (∀ b : Byte, (∃ i, decode b = .ok i) ↔ 0x01 ≤ b.toNat ∧ b.toNat ≤ 0x0C)

/-! ### The step -/

/-- A busy core whose `OPC` decodes runs that command when the engine has the turn: with no turn pending, or with an
engine turn first in the queue, which is taken off (R93; the queue is the model's choice, log 1). -/
def Obligations.StepRunsTheRunningCommand : Prop :=
  ∀ (s : State) (i : Instr), s.busy = true → decode s.opc = .ok i →
    (s.queue = [] → step s = exec i s) ∧
    (∀ rest, s.queue = .engine :: rest → step s = exec i { s with queue := rest })

/-- The word of a command placed where the next step takes its command from is run by the very next step, in the state
its start leaves (R91, R93; `withFetchWord` is the model's choice, log 5). -/
def Obligations.PlacedCommandRunsNext : Prop :=
  ∀ (s : State) (i : Instr), step (s.withFetchWord 8 (encode i).toNat) = exec i (s.start (encode i))

/-- "every rule is total and deterministic" (93_implementation_defined.md, Part 1): no state is stuck, none faults, none
is refused. -/
def Obligations.EveryStepAnswersNext : Prop := ∀ s : State, ∃ t, step s = .next t

/-- What one clock cycle of the pins does (R61): reset, or the host's write, or nothing; and what `rdata` shows. -/
def Obligations.CycleFollowsThePins : Prop :=
  ∀ (s : State) (p : Pins) (rest : List Event), s.queue = .cycle p :: rest →
    (p.rst = true → step s = .next { State.reset with queue := rest, rdata := 0x00 }) ∧
    (p.rst = false → p.sel = true → p.we = true →
      step s = .next { busWrite { s with queue := rest } p.addr p.wdata with rdata := 0x00 }) ∧
    (p.rst = false → p.sel = true → p.we = false →
      step s = .next { s with queue := rest, rdata := busRead s p.addr }) ∧
    (p.rst = false → p.sel = false → step s = .next { s with queue := rest, rdata := 0x00 })

/-! ### Invariants -/

/-- The reset state satisfies R44, whatever turns are to come. -/
def Obligations.ResetSatisfiesInvariants : Prop := ∀ turns : List Event, Inv { State.reset with queue := turns }

/-- Every step keeps the invariants of R44, from every state that satisfies them. -/
def Obligations.StepKeepsInvariants : Prop := ∀ s t : State, Inv s → step s = .next t → Inv t

/-- R44: the invariants hold in every reachable state. -/
def Obligations.ReachableStatesSatisfyInvariants : Prop := ∀ s : State, Reachable s → Inv s

/-! ### Reset -/

/-- R45, with R260: a cycle with `rst` asserted, whatever else the pins show and whatever the core is doing, makes every
item of R20 zero; the core is idle and `irq` is low. -/
def Obligations.ResetClearsEveryItem : Prop :=
  ∀ (s t : State) (p : Pins) (rest : List Event),
    s.queue = .cycle p :: rest → p.rst = true → step s = .next t →
    t.opc = 0x00 ∧ t.status = 0x00 ∧ t.errcode = 0x00 ∧ t.ctrl = 0x00 ∧
    t.dlen = 0 ∧ t.tlen = 0 ∧ t.clen = 0 ∧ t.klen = 0 ∧ t.time = 0 ∧ t.ctr = 0 ∧ t.bin = 0 ∧ t.coden = 0 ∧ t.offs = 0 ∧
    (∀ i : Fin 8, t.cand[i] = 0x00) ∧ (∀ i : Fin 6, t.code0[i] = 0x00) ∧ (∀ i : Fin 6, t.code1[i] = 0x00) ∧
    (∀ i : Fin 6, t.code2[i] = 0x00) ∧ (∀ i : Fin 20, t.mac[i] = 0x00) ∧ (∀ i : Fin 64, t.dbuf[i] = 0x00) ∧
    (∀ i : Fin 104, t.tbuf[i] = 0x00) ∧ (∀ i : Fin 64, t.key[i] = 0x00) ∧
    t.busy = false ∧ t.done = false ∧ t.err = false ∧ t.matched = false ∧ t.keyv = false ∧ t.irq = false

/-! ### The register space -/

/-- R64: what the idle core shows at every address, by the table of R20 (numbers big-endian by address), 0x00 where
nothing is mapped; and a read changes no item. -/
def Obligations.IdleReadShowsTheAddressedItem : Prop :=
  (∀ s : State, s.busy = false →
    busRead s 0x000 = s.opc ∧ busRead s 0x001 = s.status &&& 0x1F ∧ busRead s 0x002 = s.errcode ∧
    busRead s 0x003 = s.ctrl &&& 0x01 ∧ busRead s 0x004 = s.dlen ∧ busRead s 0x005 = s.tlen ∧
    busRead s 0x006 = s.clen ∧ busRead s 0x007 = s.klen ∧ busRead s 0x054 = s.offs ∧
    (∀ i, i < 8 → busRead s (BitVec.ofNat 9 (0x008 + i)) = BitVec.ofNat 8 (s.time.toNat / 256 ^ (7 - i))) ∧
    (∀ i, i < 8 → busRead s (BitVec.ofNat 9 (0x010 + i)) = BitVec.ofNat 8 (s.ctr.toNat / 256 ^ (7 - i))) ∧
    (∀ i, i < 4 → busRead s (BitVec.ofNat 9 (0x018 + i)) = BitVec.ofNat 8 (s.bin.toNat / 256 ^ (3 - i))) ∧
    (∀ i, i < 4 → busRead s (BitVec.ofNat 9 (0x01C + i)) = BitVec.ofNat 8 (s.coden.toNat / 256 ^ (3 - i))) ∧
    (∀ i (h : i < 8), busRead s (BitVec.ofNat 9 (0x020 + i)) = s.cand[i]) ∧
    (∀ i (h : i < 6), busRead s (BitVec.ofNat 9 (0x028 + i)) = s.code0[i]) ∧
    (∀ i (h : i < 6), busRead s (BitVec.ofNat 9 (0x030 + i)) = s.code1[i]) ∧
    (∀ i (h : i < 6), busRead s (BitVec.ofNat 9 (0x038 + i)) = s.code2[i]) ∧
    (∀ i (h : i < 20), busRead s (BitVec.ofNat 9 (0x040 + i)) = s.mac[i]) ∧
    (∀ i (h : i < 64), busRead s (BitVec.ofNat 9 (0x080 + i)) = s.dbuf[i]) ∧
    (∀ i (h : i < 104), busRead s (BitVec.ofNat 9 (0x100 + i)) = s.tbuf[i]) ∧
    (∀ a, Unmapped a → busRead s a = 0x00)) ∧
  (∀ (s : State) (a : Addr) (w : Byte) (rest : List Event), s.queue = .cycle ⟨false, true, false, a, w⟩ :: rest →
    step s = .next { s with queue := rest, rdata := busRead s a })

/-- R68: the bytes the host sees of a numeric register, from its lowest address, are its big-endian value; the bytes of a
byte-sequence item are its elements in order. -/
def Obligations.MultiByteItemsAreLaidOutByAddress : Prop :=
  ∀ s : State, s.busy = false →
    be ((List.range 8).map fun i => busRead s (BitVec.ofNat 9 (0x008 + i))) = s.time.toNat ∧
    be ((List.range 8).map fun i => busRead s (BitVec.ofNat 9 (0x010 + i))) = s.ctr.toNat ∧
    be ((List.range 4).map fun i => busRead s (BitVec.ofNat 9 (0x018 + i))) = s.bin.toNat ∧
    be ((List.range 4).map fun i => busRead s (BitVec.ofNat 9 (0x01C + i))) = s.coden.toNat ∧
    ((List.range 8).map fun i => busRead s (BitVec.ofNat 9 (0x020 + i))) = s.cand.toList ∧
    ((List.range 6).map fun i => busRead s (BitVec.ofNat 9 (0x028 + i))) = s.code0.toList ∧
    ((List.range 6).map fun i => busRead s (BitVec.ofNat 9 (0x030 + i))) = s.code1.toList ∧
    ((List.range 6).map fun i => busRead s (BitVec.ofNat 9 (0x038 + i))) = s.code2.toList ∧
    ((List.range 20).map fun i => busRead s (BitVec.ofNat 9 (0x040 + i))) = s.mac.toList ∧
    ((List.range 64).map fun i => busRead s (BitVec.ofNat 9 (0x080 + i))) = s.dbuf.toList ∧
    ((List.range 104).map fun i => busRead s (BitVec.ofNat 9 (0x100 + i))) = s.tbuf.toList

/-- R63: at an address that holds no state a read returns 0x00 and a write is ignored, in both phases. -/
def Obligations.UnmappedAddressesAreInert : Prop :=
  ∀ (s : State) (a : Addr) (v : Byte), Unmapped a → busRead s a = 0x00 ∧ busWrite s a v = s

/-- R65: what a write does at every address while idle. A write to `CMD` is the start of R91, which
`StartLatchesAndClears` states. -/
def Obligations.IdleWriteEffects : Prop :=
  ∀ (s : State) (v : Byte), s.busy = false →
    busWrite s 0x000 v = s.start v ∧
    (busWrite s 0x001 v = { s with status := (busWrite s 0x001 v).status } ∧
      ∀ j, j < 8 → (busWrite s 0x001 v).status.getLsbD j =
        if j = 1 ∧ v.getLsbD 1 = true then false else s.status.getLsbD j) ∧
    (busWrite s 0x003 v = { s with ctrl := (busWrite s 0x003 v).ctrl } ∧
      ∀ j, j < 8 → (busWrite s 0x003 v).ctrl.getLsbD j = if j = 0 then v.getLsbD 0 else s.ctrl.getLsbD j) ∧
    (∀ a, PlainWritable a →
      busRead (busWrite s a v) a = v ∧
      (∀ b, b ≠ a → busRead (busWrite s a v) b = busRead s b) ∧
      (busWrite s a v).opc = s.opc ∧ (busWrite s a v).status = s.status ∧ (busWrite s a v).ctrl = s.ctrl ∧
      (busWrite s a v).key = s.key ∧ (busWrite s a v).queue = s.queue ∧ (busWrite s a v).rdata = s.rdata) ∧
    (∀ a, ReadOnly a ∨ Unmapped a → busWrite s a v = s)

/-- R66: accesses while busy. The value a read of `STATUS` shows is `0b000k0001` by the invariant R44. -/
def Obligations.BusyAccessesAreIgnored : Prop :=
  ∀ s : State, s.busy = true →
    (∀ (a : Addr) (v : Byte), busWrite s a v = s) ∧
    busRead s 0x001 = s.status &&& 0x1F ∧
    (Inv s → busRead s 0x001 = if s.keyv then 0x11 else 0x01) ∧
    busRead s 0x000 = s.opc ∧
    (∀ a : Addr, a ≠ 0x000 → a ≠ 0x001 → busRead s a = 0x00)

/-- R71, its last sentence: writing the same byte twice equals writing it once, but at `CMD`. -/
def Obligations.WritesButToCmdAreIdempotent : Prop :=
  ∀ (s : State) (a : Addr) (v : Byte), a ≠ 0x000 → busWrite (busWrite s a v) a v = busWrite s a v

/-! ### Life cycle of a command, errors, interrupt -/

/-- R91: the start of a command, for every byte; while busy it is ignored. -/
def Obligations.StartLatchesAndClears : Prop :=
  ∀ (s : State) (v : Byte),
    (s.busy = false →
      (busWrite s 0x000 v).opc = v ∧ (busWrite s 0x000 v).busy = true ∧ (busWrite s 0x000 v).done = false ∧
      (busWrite s 0x000 v).err = false ∧ (busWrite s 0x000 v).matched = false ∧
      (busWrite s 0x000 v).errcode = 0x00 ∧ (busWrite s 0x000 v).keyv = s.keyv ∧
      (∀ j, 5 ≤ j → j < 8 → (busWrite s 0x000 v).status.getLsbD j = s.status.getLsbD j) ∧
      busWrite s 0x000 v = { s with opc := v, status := (busWrite s 0x000 v).status, errcode := 0x00 }) ∧
    (s.busy = true → busWrite s 0x000 v = s)

/-- R22: `OPC` is what the last accepted write to `CMD` wrote, shows at `CMD` in both phases, is 0x00 after reset, and
"changes at no other time". -/
def Obligations.OpcChangesOnlyAtStartAndReset : Prop :=
  (∀ (s : State) (v : Byte), s.busy = false → (busWrite s 0x000 v).opc = v) ∧
  (∀ s : State, busRead s 0x000 = s.opc) ∧
  State.reset.opc = 0x00 ∧
  (∀ s t : State, step s = .next t → t.opc ≠ s.opc →
    ∃ p rest, s.queue = .cycle p :: rest ∧
      (p.rst = true ∨ (s.busy = false ∧ p.sel = true ∧ p.we = true ∧ p.addr = 0x000)))

/-- Every command completes in every state, with the status update of R93: BUSY falls, DONE rises, ERR tells whether
`ERRCODE` is not 0, and only VALID can set MATCH. -/
def Obligations.EveryCommandCompletes : Prop :=
  ∀ (i : Instr) (s : State), ∃ t, exec i s = .next t ∧
    t.busy = false ∧ t.done = true ∧ (t.err = true ↔ t.errcode ≠ 0x00) ∧ t.errcode.toNat ≤ 5 ∧
    (i ≠ .valid → t.matched = false) ∧ (t.matched = true → t.err = false) ∧
    t.opc = s.opc ∧ t.ctrl = s.ctrl ∧ t.queue = s.queue ∧ t.rdata = s.rdata

/-- R226: an error sets ERR, `ERRCODE`, DONE, clears MATCH and BUSY, "and **nothing else**"; `irq` rises if enabled. -/
def Obligations.ErrorChangesOnlyStatus : Prop :=
  ∀ s t : State, ((∃ i, exec i s = .next t) ∨ execIllegal s = .next t) → t.err = true →
    Completed s t false true t.errcode s.keyv ∧ t.errcode ≠ 0x00 ∧
    t = { s with status := t.status, errcode := t.errcode } ∧ t.irq = s.ien

/-- R227: which error a command reports, for every command, in the order of the checks. -/
def Obligations.ErrorPriority : Prop :=
  ∀ (s t : State),
    (execIllegal s = .next t → t.errcode = 0x01) ∧
    ((exec .b32enc s = .next t ∨ exec .b32encp s = .next t ∨ exec .keyld s = .next t ∨ exec .sha1 s = .next t) →
      t.errcode = if 64 < s.dlen.toNat then 0x03 else 0x00) ∧
    (exec .b32dec s = .next t →
      (104 < s.tlen.toNat → t.errcode = 0x03) ∧
      (s.tlen.toNat ≤ 104 → ¬ AcceptedText s.text → t.errcode = 0x04) ∧
      (s.tlen.toNat ≤ 104 → AcceptedText s.text →
        t.errcode = if s.tlen.toNat = 104 ∧ s.tbuf[103] ≠ 0x3D then 0x03 else 0x00)) ∧
    (exec .hmac s = .next t →
      t.errcode = if s.keyv = false then 0x02 else if 64 < s.dlen.toNat then 0x03 else 0x00) ∧
    ((exec .hotp s = .next t ∨ exec .codes s = .next t) → t.errcode = if s.keyv = false then 0x02 else 0x00) ∧
    (exec .valid s = .next t →
      t.errcode = if s.keyv = false then 0x02
        else if s.clen = 6 ∧ ∀ j : Fin 6, 0x30 ≤ (s.cand.getD j 0).toNat ∧ (s.cand.getD j 0).toNat ≤ 0x39 then 0x00
        else 0x05) ∧
    ((exec .keyclr s = .next t ∨ exec .trunc s = .next t ∨ exec .tdiv s = .next t) → t.errcode = 0x00)

/-- R221 to R224, R226: each check that fails ends its command in its error: the status of an error, and nothing else
changed. -/
def Obligations.FailedChecksRaiseTheirError : Prop :=
  ∀ s : State,
    (s.keyv = false → ∀ i : Instr, i = .hmac ∨ i = .hotp ∨ i = .codes ∨ i = .valid →
      ∃ t, exec i s = .next t ∧ Completed s t false true 0x02 false ∧
        t = { s with status := t.status, errcode := t.errcode }) ∧
    (64 < s.dlen.toNat →
      ∀ i : Instr, i = .b32enc ∨ i = .b32encp ∨ i = .keyld ∨ i = .sha1 ∨ (i = .hmac ∧ s.keyv = true) →
      ∃ t, exec i s = .next t ∧ Completed s t false true 0x03 s.keyv ∧
        t = { s with status := t.status, errcode := t.errcode }) ∧
    (104 < s.tlen.toNat ∨ (s.tlen.toNat = 104 ∧ AcceptedText s.text ∧ s.tbuf[103] ≠ 0x3D) →
      ∃ t, exec .b32dec s = .next t ∧ Completed s t false true 0x03 s.keyv ∧
        t = { s with status := t.status, errcode := t.errcode }) ∧
    (s.tlen.toNat ≤ 104 → ¬ AcceptedText s.text →
      ∃ t, exec .b32dec s = .next t ∧ Completed s t false true 0x04 s.keyv ∧
        t = { s with status := t.status, errcode := t.errcode }) ∧
    (s.keyv = true → (s.clen ≠ 6 ∨ ∃ j : Fin 6, (s.cand.getD j 0).toNat < 0x30 ∨ 0x39 < (s.cand.getD j 0).toNat) →
      ∃ t, exec .valid s = .next t ∧ Completed s t false true 0x05 s.keyv ∧
        t = { s with status := t.status, errcode := t.errcode })

/-- R229: on an idle core ERR, `ERRCODE` and MATCH last until the next accepted write to `CMD`, which clears them and
DONE, or until reset; a write to `STATUS` does not touch them; while a command runs no other can start. -/
def Obligations.ErrorStatusLastsUntilTheNextStart : Prop :=
  (∀ s t : State, step s = .next t → s.busy = false →
    (t.err ≠ s.err ∨ t.errcode ≠ s.errcode ∨ t.matched ≠ s.matched) → ResetsNow s ∨ ∃ v, WritesNow s 0x000 v) ∧
  (∀ (s : State) (v : Byte), s.busy = false →
    (busWrite s 0x000 v).err = false ∧ (busWrite s 0x000 v).errcode = 0x00 ∧ (busWrite s 0x000 v).matched = false ∧
    (busWrite s 0x000 v).done = false ∧
    (busWrite s 0x001 v).err = s.err ∧ (busWrite s 0x001 v).errcode = s.errcode ∧
    (v.getLsbD 1 = true → (busWrite s 0x001 v).done = false)) ∧
  (∀ s : State, s.resetCore.err = false ∧ s.resetCore.errcode = 0x00 ∧ s.resetCore.matched = false) ∧
  (∀ (s : State) (v : Byte), s.busy = true → busWrite s 0x000 v = s)

/-- The causes of every change of a flag, as the table of R25 lists them, from every state that satisfies R44: BUSY rises
at an accepted start and falls at a completion; DONE rises at a completion and falls at a start or an acknowledge; ERR
and MATCH rise at a completion, MATCH only of VALID, and fall at a start; KEYV rises at the completion of KEYLD and falls
at that of KEYCLR; all fall at reset; the reserved bits stay 0. -/
def Obligations.StatusBitsChangeOnlyForListedCauses : Prop :=
  ∀ s t : State, Inv s → step s = .next t →
    (s.busy = false → t.busy = true → ∃ v, WritesNow s 0x000 v) ∧
    (s.busy = true → t.busy = false → CompletesNow s ∨ ResetsNow s) ∧
    (s.done = false → t.done = true → CompletesNow s) ∧
    (s.done = true → t.done = false →
      (∃ v, WritesNow s 0x000 v) ∨ (∃ v, WritesNow s 0x001 v ∧ v.getLsbD 1 = true) ∨ ResetsNow s) ∧
    (s.err = false → t.err = true → CompletesNow s) ∧
    (s.err = true → t.err = false → (∃ v, WritesNow s 0x000 v) ∨ ResetsNow s) ∧
    (s.matched = false → t.matched = true → CompletesNow s ∧ decode s.opc = .ok .valid) ∧
    (s.matched = true → t.matched = false → (∃ v, WritesNow s 0x000 v) ∨ ResetsNow s) ∧
    (s.keyv = false → t.keyv = true → CompletesNow s ∧ decode s.opc = .ok .keyld) ∧
    (s.keyv = true → t.keyv = false → (CompletesNow s ∧ decode s.opc = .ok .keyclr) ∨ ResetsNow s) ∧
    (∀ j, 5 ≤ j → j < 8 → t.status.getLsbD j = false)

/-- R95: a byte that is no command, written to `CMD` while idle, starts like any command and completes with ILLCMD; no
data register changes. -/
def Obligations.IllegalByteCompletesWithIllcmd : Prop :=
  ∀ (s : State) (v : Byte), s.busy = false → (v = 0x00 ∨ 0x0D ≤ v.toNat) →
    (busWrite s 0x000 v).opc = v ∧ (busWrite s 0x000 v).busy = true ∧
    ∃ t, engineTurn (busWrite s 0x000 v) = .next t ∧ Completed s t false true 0x01 s.keyv ∧
      t = { s with opc := v, status := t.status, errcode := 0x01 }

/-- R230: `irq` is `CTRL.IEN & STATUS.DONE`; 0 after reset; it rises at the completion of any command, with or without
error, if enabled, and when `IEN` is set while DONE is 1; it falls at an acknowledge, at the next start and at reset. -/
def Obligations.IrqFollowsEnableAndDone : Prop :=
  (∀ s : State, s.irq = true ↔ s.ien = true ∧ s.done = true) ∧
  State.reset.irq = false ∧
  (∀ s t : State, ((∃ i, exec i s = .next t) ∨ execIllegal s = .next t) → t.done = true ∧ t.irq = s.ien) ∧
  (∀ (s : State) (v : Byte), s.busy = false →
    (v.getLsbD 0 = true → (busWrite s 0x003 v).irq = s.done) ∧
    (v.getLsbD 1 = true → (busWrite s 0x001 v).irq = false) ∧
    (busWrite s 0x000 v).irq = false) ∧
  (∀ s : State, s.resetCore.irq = false)

/-- A started command completes: a busy core is idle again after at most one step more than the turns pending (R93's
fairness, with the queue of log 1). -/
def Obligations.StartedCommandCompletes : Prop :=
  ∀ s : State, s.busy = true → ∃ k, k ≤ s.queue.length + 1 ∧ ReachesIn k s fun t => t.busy = false

/-- The moment of completion does not matter (R93, R99): whatever accesses the host makes while the command runs, short
of a reset, the state after the completion is the same but for the last `rdata`. -/
def Obligations.CompletionTimeDoesNotMatter : Prop :=
  ∀ (s t : State) (ps : List Pins), s.busy = true → (∀ p ∈ ps, p.rst = false) → engineStep { s with queue := [] } = .next t →
    ReachesIn (ps.length + 1) { s with queue := ps.map Event.cycle ++ [.engine] } fun u => ∃ r, u = { t with rdata := r }

/-! ### What commands read and write -/

/-- R92: the operands a command's results depend on, the items it can change on success besides the status update (KEYV
only at KEYLD and KEYCLR, MATCH only at VALID), its possible errors, and on an error none of the items. -/
def Obligations.CommandsReadAndWriteWhatR92Lists : Prop :=
  ∀ (i : Instr) (s u t v : State), exec i s = .next t → exec i u = .next v →
    ChangesOnlyResults i s t ∧
    (SameOperands i s u →
      t.errcode = v.errcode ∧ t.matched = v.matched ∧ (t.errcode = 0x00 → SameResults i t v)) ∧
    (t.errcode ≠ 0x00 → t = { s with status := t.status, errcode := t.errcode }) ∧
    (t.errcode ≠ 0x00 ∨ (i ≠ .keyld ∧ i ≠ .keyclr) → t.keyv = s.keyv) ∧
    (i ≠ .valid → t.matched = false) ∧
    (t.errcode = 0x00 ∨
      match i with
      | .b32enc => t.errcode = 0x03
      | .b32encp => t.errcode = 0x03
      | .b32dec => t.errcode = 0x03 ∨ t.errcode = 0x04
      | .keyld => t.errcode = 0x03
      | .keyclr => False
      | .sha1 => t.errcode = 0x03
      | .hmac => t.errcode = 0x02 ∨ t.errcode = 0x03
      | .trunc => False
      | .hotp => t.errcode = 0x02
      | .tdiv => False
      | .codes => t.errcode = 0x02
      | .valid => t.errcode = 0x02 ∨ t.errcode = 0x05)

/-- The frame of every command through the byte read: outside `STATUS`, `ERRCODE` and the addresses its row of R20 gives
it, every address shows what it showed. -/
def Obligations.CommandsLeaveOtherAddressesAlone : Prop :=
  ∀ (i : Instr) (s t : State), exec i s = .next t →
    ∀ a : Addr, a ≠ 0x001 → a ≠ 0x002 → ¬ CommandWrites i a → cellAt t a = cellAt s a

/-- R142: the secret, its length and KEYV change only at the completion of KEYLD or KEYCLR and at reset. -/
def Obligations.SecretLifetime : Prop :=
  ∀ s t : State, step s = .next t → (t.key ≠ s.key ∨ t.klen ≠ s.klen ∨ t.keyv ≠ s.keyv) →
    (s.busy = true ∧ (s.queue = [] ∨ ∃ rest, s.queue = .engine :: rest) ∧
      ((decode s.opc = .ok .keyld ∧ s.dlen.toNat ≤ 64) ∨ decode s.opc = .ok .keyclr)) ∨
    (∃ p rest, s.queue = .cycle p :: rest ∧ p.rst = true)

/-- No bus read returns a byte of `KEY` and no bus write changes it (R42): in two cores that differ only in the key, any
cycle shows the same on `rdata` and leaves them differing only in the key. -/
def Obligations.BusNeitherReadsNorWritesTheKey : Prop :=
  ∀ (s : State) (k : Vector Byte 64) (p : Pins), p.rst = false →
    rdataPin { s with key := k } p = rdataPin s p ∧
    busCycle { s with key := k } p = { busCycle s p with key := k } ∧
    (busCycle s p).key = s.key

/-! ### Base32 -/

/-- B32ENC (R118, R111): with `DLEN` at most 64 it completes; `TLEN` is ceil(8n/5); symbol `j` is the letter of bits
5j to 5j+4 of the data; the rest of `TBUF` is zero. -/
def Obligations.B32encEncodesTheData : Prop :=
  ∀ s : State, s.dlen.toNat ≤ 64 → ∃ t, exec .b32enc s = .next t ∧
    Completed s t false false 0x00 s.keyv ∧
    t = { s with status := t.status, errcode := t.errcode, tbuf := t.tbuf, tlen := t.tlen } ∧
    t.tlen.toNat = (8 * s.dlen.toNat + 4) / 5 ∧
    (∀ j, j < t.tlen.toNat → ∃ v, v < 32 ∧ t.tbuf.getD j 0 = alphabet.getD v 0 ∧
      ∀ k, k < 5 → v.testBit (4 - k) = bitAt s.data (5 * j + k)) ∧
    (∀ j, t.tlen.toNat ≤ j → t.tbuf.getD j 0 = 0x00)

/-- B32ENCP (R119, R113): the symbols of B32ENC, then `=` up to 8·ceil(n/5) characters, then zeros. -/
def Obligations.B32encpPadsTheEncoding : Prop :=
  ∀ s : State, s.dlen.toNat ≤ 64 → ∃ t u, exec .b32encp s = .next t ∧ exec .b32enc s = .next u ∧
    Completed s t false false 0x00 s.keyv ∧
    t = { s with status := t.status, errcode := t.errcode, tbuf := t.tbuf, tlen := t.tlen } ∧
    t.tlen.toNat = 8 * ((s.dlen.toNat + 4) / 5) ∧
    (∀ j, j < u.tlen.toNat → t.tbuf.getD j 0 = u.tbuf.getD j 0) ∧
    (∀ j, u.tlen.toNat ≤ j → j < t.tlen.toNat → t.tbuf.getD j 0 = 0x3D) ∧
    (∀ j, t.tlen.toNat ≤ j → t.tbuf.getD j 0 = 0x00)

/-- B32DEC (R120, R115): on a text of data symbols `vs` and pads that R115 accepts and whose bytes fit, it completes;
`DLEN` is 5d/8; bit `k` of the bytes is bit `k` of the symbols; the rest of `DBUF` is zero. -/
def Obligations.B32decDecodesTheText : Prop :=
  ∀ (s : State) (vs : List Nat) (p : Nat), s.tlen.toNat ≤ 104 → AcceptedText s.text → (∀ v ∈ vs, v < 32) →
    s.text = (vs.map fun v => alphabet.getD v 0) ++ List.replicate p 0x3D → 5 * vs.length / 8 ≤ 64 →
    ∃ t, exec .b32dec s = .next t ∧
      Completed s t false false 0x00 s.keyv ∧
      t = { s with status := t.status, errcode := t.errcode, dbuf := t.dbuf, dlen := t.dlen } ∧
      t.dlen.toNat = 5 * vs.length / 8 ∧
      (∀ k, k < 8 * t.dlen.toNat → bitAt t.dbuf.toList k = (vs.getD (k / 5) 0).testBit (4 - k % 5)) ∧
      (∀ j, t.dlen.toNat ≤ j → t.dbuf.getD j 0 = 0x00)

/-- R117: the round trip of both forms; the encoders undo the decoder on what it accepts, unpadded and padded; every
byte of an unpadded encoding is in the alphabet. -/
def Obligations.Base32CodeIsExact : Prop :=
  (∀ b : List Byte, b32dec (b32enc b) = some b ∧ b32dec (b32encp b) = some b) ∧
  (∀ t b : List Byte, b32dec t = some b →
    (t.getLastD 0 ≠ 0x3D → b32enc b = t) ∧ (t.getLastD 0 = 0x3D → b32encp b = t)) ∧
  (∀ t t' b : List Byte, t.getLastD 0 ≠ 0x3D → t'.getLastD 0 ≠ 0x3D → b32dec t = some b → b32dec t' = some b → t = t') ∧
  (∀ (b : List Byte) (c : Byte), c ∈ b32enc b → c ∈ alphabet)

/-- The round trip as the host sees it (V1.4): B32ENC or B32ENCP, then B32DEC, restores the data and `DLEN`. -/
def Obligations.EncodeThenDecodeRestoresTheData : Prop :=
  ∀ s : State, s.dlen.toNat ≤ 64 → ∀ t, (exec .b32enc s = .next t ∨ exec .b32encp s = .next t) →
    ∃ u, exec .b32dec t = .next u ∧ u.errcode = 0x00 ∧ u.dlen = s.dlen ∧
      (∀ j, j < s.dlen.toNat → u.dbuf.getD j 0 = s.dbuf.getD j 0) ∧
      (∀ j, s.dlen.toNat ≤ j → u.dbuf.getD j 0 = 0x00)

/-! ### The key store -/

/-- KEYLD (R140): with `DLEN` at most 64 it completes; the secret is the data, zero-filled; KEYV is set. -/
def Obligations.KeyldLoadsTheData : Prop :=
  ∀ s : State, s.dlen.toNat ≤ 64 → ∃ t, exec .keyld s = .next t ∧
    Completed s t false false 0x00 true ∧
    t = { s with status := t.status, errcode := t.errcode, key := t.key, klen := t.klen } ∧
    t.klen = s.dlen ∧
    (∀ j, j < s.dlen.toNat → t.key.getD j 0 = s.dbuf.getD j 0) ∧
    (∀ j, s.dlen.toNat ≤ j → t.key.getD j 0 = 0x00)

/-- KEYCLR (R141): it always completes; the key store and every register derived from it are zero. -/
def Obligations.KeyclrZeroises : Prop :=
  ∀ s : State, ∃ t, exec .keyclr s = .next t ∧
    Completed s t false false 0x00 false ∧
    t = { s with
      status := t.status, errcode := t.errcode, key := t.key, klen := 0, mac := t.mac, offs := 0, bin := 0, coden := 0
      code0 := t.code0, code1 := t.code1, code2 := t.code2 } ∧
    (∀ j : Fin 64, t.key[j] = 0x00) ∧ (∀ j : Fin 20, t.mac[j] = 0x00) ∧ (∀ j : Fin 6, t.code0[j] = 0x00) ∧
    (∀ j : Fin 6, t.code1[j] = 0x00) ∧ (∀ j : Fin 6, t.code2[j] = 0x00)

/-! ### SHA-1 and HMAC -/

/-- R151: the padding is 0x80, the smallest number of zeros that makes 56 modulo 64, and the bit length; the padded
length is 64·((n + 8) div 64 + 1). -/
def Obligations.Sha1PaddingShape : Prop :=
  ∀ m : List Byte, ∃ z, sha1Pad m = m ++ [0x80] ++ List.replicate z 0x00 ++ bytesBE (8 * m.length) 8 ∧
    (m.length + 1 + z) % 64 = 56 ∧ (∀ y, (m.length + 1 + y) % 64 = 56 → z ≤ y) ∧
    (sha1Pad m).length = 64 * ((m.length + 8) / 64 + 1)

/-- R152, R154: the padded message is cut into blocks of 64 bytes, byte `j` of block `i` its byte 64i + j; the first
sixteen schedule words of a block are its bytes four by four, big-endian; every later word is the rotation by 1 of the
XOR of four earlier ones. -/
def Obligations.Sha1ScheduleRecurrence : Prop :=
  (∀ m : List Byte,
    64 * (sha1Blocks ((sha1Pad m).length / 64) (sha1Pad m)).length = (sha1Pad m).length ∧
    ∀ i, i < (sha1Pad m).length / 64 →
      ((sha1Blocks ((sha1Pad m).length / 64) (sha1Pad m)).getD i []).length = 64 ∧
      ∀ j, j < 64 →
        ((sha1Blocks ((sha1Pad m).length / 64) (sha1Pad m)).getD i []).getD j 0 = (sha1Pad m).getD (64 * i + j) 0) ∧
  (∀ b : List Byte, b.length = 64 → ∀ t, t < 16 →
    ((schedule b).getD t 0).toNat =
      (b.getD (4 * t) 0).toNat * 2 ^ 24 + (b.getD (4 * t + 1) 0).toNat * 2 ^ 16 + (b.getD (4 * t + 2) 0).toNat * 2 ^ 8 +
        (b.getD (4 * t + 3) 0).toNat) ∧
  ∀ b : List Byte, (schedule b).length = 80 ∧
    (∀ t, t < 16 → (schedule b).getD t 0 = (blockWords b).getD t 0) ∧
    (∀ t, 16 ≤ t → t < 80 →
      (schedule b).getD t 0 =
        ((schedule b).getD (t - 3) 0 ^^^ (schedule b).getD (t - 8) 0 ^^^ (schedule b).getD (t - 14) 0 ^^^
          (schedule b).getD (t - 16) 0).rotateLeft 1)

/-- R156, with R153 and R155: any sequence of working words that follows the eighty rounds ends in the compression's
words, and any sequence of chaining values that follows the blocks ends in the digest. -/
def Obligations.Sha1FollowsTheRounds : Prop :=
  (∀ (h : Five) (b : List Byte) (r : Nat → Five), r 0 = h →
    (∀ t, t < 80 →
      (r (t + 1)).a = (r t).a.rotateLeft 5 +
        (if t < 20 then ((r t).b &&& (r t).c) ||| (~~~(r t).b &&& (r t).d)
          else if t < 40 then (r t).b ^^^ (r t).c ^^^ (r t).d
          else if t < 60 then ((r t).b &&& (r t).c) ||| ((r t).b &&& (r t).d) ||| ((r t).c &&& (r t).d)
          else (r t).b ^^^ (r t).c ^^^ (r t).d) +
        (r t).e +
        (if t < 20 then 0x5A827999 else if t < 40 then 0x6ED9EBA1 else if t < 60 then 0x8F1BBCDC else 0xCA62C1D6) +
        (schedule b).getD t 0 ∧
      (r (t + 1)).b = (r t).a ∧ (r (t + 1)).c = (r t).b.rotateLeft 30 ∧ (r (t + 1)).d = (r t).c ∧
      (r (t + 1)).e = (r t).d) →
    sha1Compress h b = ⟨h.a + (r 80).a, h.b + (r 80).b, h.c + (r 80).c, h.d + (r 80).d, h.e + (r 80).e⟩) ∧
  (∀ (m : List Byte) (g : Nat → Five), g 0 = ⟨0x67452301, 0xEFCDAB89, 0x98BADCFE, 0x10325476, 0xC3D2E1F0⟩ →
    (∀ i, i < (sha1Pad m).length / 64 → g (i + 1) = sha1Compress (g i) (((sha1Pad m).drop (64 * i)).take 64)) →
    sha1 m =
      bytesBE (g ((sha1Pad m).length / 64)).a.toNat 4 ++ bytesBE (g ((sha1Pad m).length / 64)).b.toNat 4 ++
      bytesBE (g ((sha1Pad m).length / 64)).c.toNat 4 ++ bytesBE (g ((sha1Pad m).length / 64)).d.toNat 4 ++
      bytesBE (g ((sha1Pad m).length / 64)).e.toNat 4)

/-- SHA1 (R162): with `DLEN` at most 64 it completes, with or without a key; `MAC` is the digest of the data. -/
def Obligations.Sha1DigestsTheData : Prop :=
  ∀ s : State, s.dlen.toNat ≤ 64 → ∃ t, exec .sha1 s = .next t ∧
    Completed s t false false 0x00 s.keyv ∧
    t = { s with status := t.status, errcode := t.errcode, mac := t.mac } ∧
    t.mac.toList = sha1 s.data

/-- HMAC (R163, R160): with a key and `DLEN` at most 64 it completes; where the key store is zero beyond `KLEN` (R44),
`MAC` is the outer hash over the inner hash with the 64 bytes of `KEY` XORed with the two pad bytes. -/
def Obligations.HmacAuthenticatesTheData : Prop :=
  ∀ s : State, s.keyv = true → s.dlen.toNat ≤ 64 → ∃ t, exec .hmac s = .next t ∧
    Completed s t false false 0x00 s.keyv ∧
    t = { s with status := t.status, errcode := t.errcode, mac := t.mac } ∧
    (Inv s → t.mac.toList =
      sha1 (s.key.toList.map (· ^^^ 0x5C) ++ sha1 (s.key.toList.map (· ^^^ 0x36) ++ s.data)))

/-- Two secrets that differ only by trailing 0x00 bytes give the same MAC (R160). -/
def Obligations.TrailingZeroKeyBytesDoNotMatter : Prop :=
  ∀ (k m : List Byte) (z : Nat), k.length + z ≤ 64 → hmacSha1 (k ++ List.replicate z 0x00) m = hmacSha1 k m

/-! ### HOTP -/

/-- TRUNC (R186, R181, R182, R184): it always completes; offset, 31-bit value, code and its six digits, from whatever
`MAC` holds. -/
def Obligations.TruncTruncatesTheMac : Prop :=
  ∀ s : State, ∃ t, exec .trunc s = .next t ∧
    Completed s t false false 0x00 s.keyv ∧
    t = { s with
      status := t.status, errcode := t.errcode, offs := t.offs, bin := t.bin, coden := t.coden, code1 := t.code1 } ∧
    t.offs.toNat = s.mac[19].toNat % 16 ∧
    t.bin.toNat = be ((s.mac.toList.drop t.offs.toNat).take 4) % 2 ^ 31 ∧
    t.coden.toNat = t.bin.toNat % 1000000 ∧
    (∀ j : Fin 6, 0x30 ≤ t.code1[j].toNat ∧ t.code1[j].toNat ≤ 0x39) ∧
    decimalValue t.code1 = t.coden.toNat

/-- HOTP (R187): with a key it completes; `MAC` is the HMAC of the packed counter, and the truncation registers are what
TRUNC computes from that `MAC`. -/
def Obligations.HotpDerivesTheCode : Prop :=
  ∀ s : State, s.keyv = true → ∃ t u, exec .hotp s = .next t ∧
    Completed s t false false 0x00 s.keyv ∧
    t = { s with
      status := t.status, errcode := t.errcode, mac := t.mac, offs := t.offs, bin := t.bin, coden := t.coden
      code1 := t.code1 } ∧
    t.mac.toList = hmacSha1 s.secret (bytesBE s.ctr.toNat 8) ∧
    exec .trunc t = .next u ∧ t.offs = u.offs ∧ t.bin = u.bin ∧ t.coden = u.coden ∧ t.code1 = u.code1

/-- With the eight packed bytes of `CTR` as the message, the completion of HMAC and then that of TRUNC leave exactly the
state the completion of HOTP leaves (R163, R187). Whole states are equal, `OPC` included, only because the completions
are chained with no start between (the model's choice, log 12): on the hardware each start sets `OPC` (R22), which ends
as 0x08 against 0x09. -/
def Obligations.HmacThenTruncIsHotp : Prop :=
  ∀ s : State, s.keyv = true → s.dlen = 8 → (∀ j, j < 8 → s.dbuf.getD j 0 = BitVec.ofNat 8 (s.ctr.toNat / 256 ^ (7 - j))) →
    ∃ t u, exec .hmac s = .next t ∧ exec .trunc t = .next u ∧ exec .hotp s = .next u

/-- R184: a number below 10^6 is rendered as six ASCII digits of that decimal value, most significant first, and no two
are rendered alike. -/
def Obligations.RenderingIsDecimal : Prop :=
  (∀ n, n < 1000000 →
    (∀ j (h : j < 6), (digits6 n)[j].toNat = 0x30 + n / 10 ^ (5 - j) % 10) ∧ decimalValue (digits6 n) = n) ∧
  (∀ m n, m < 1000000 → n < 1000000 → digits6 m = digits6 n → m = n)

/-! ### TOTP -/

/-- TDIV (R201, R202): it always completes; `CTR` is the floor of `TIME` by 30, and its top four bits are 0. -/
def Obligations.TdivDividesTheTime : Prop :=
  ∀ s : State, ∃ t, exec .tdiv s = .next t ∧
    Completed s t false false 0x00 s.keyv ∧
    t = { s with status := t.status, errcode := t.errcode, ctr := t.ctr } ∧
    (∃ r, r ≤ 29 ∧ s.time.toNat = 30 * t.ctr.toNat + r) ∧
    t.ctr.toNat ≤ 0x0888888888888888 ∧ (∀ j, 60 ≤ j → t.ctr.getLsbD j = false)

/-- R203: the window counters; the lower one is all ones exactly when the time is at most 29, the upper never wraps. -/
def Obligations.WindowCounters : Prop :=
  ∀ t : Word64, ∃ lo hi : Word64, windowCounters (timeCounter t) = [lo, timeCounter t, hi] ∧
    lo.toNat = ((timeCounter t).toNat + 2 ^ 64 - 1) % 2 ^ 64 ∧
    hi.toNat = (timeCounter t).toNat + 1 ∧
    (lo = 0xFFFFFFFFFFFFFFFF ↔ t.toNat ≤ 29)

/-- CODES (R205): with a key it completes; `CTR` is the base counter; `CODE0`, `CODE1`, `CODE2` are what HOTP gives for
the counters one below, at and one above it modulo 2^64; the other result registers are HOTP's for the base counter. -/
def Obligations.CodesShowsTheWindow : Prop :=
  ∀ s : State, s.keyv = true → ∃ t p c n, exec .codes s = .next t ∧
    Completed s t false false 0x00 s.keyv ∧
    t = { s with
      status := t.status, errcode := t.errcode, ctr := t.ctr, mac := t.mac, offs := t.offs, bin := t.bin
      coden := t.coden, code0 := t.code0, code1 := t.code1, code2 := t.code2 } ∧
    t.ctr.toNat = s.time.toNat / 30 ∧
    exec .hotp { s with ctr := t.ctr - 1 } = .next p ∧ exec .hotp { s with ctr := t.ctr } = .next c ∧
    exec .hotp { s with ctr := t.ctr + 1 } = .next n ∧
    t.code0 = p.code1 ∧ t.code1 = c.code1 ∧ t.code2 = n.code1 ∧
    t.mac = c.mac ∧ t.offs = c.offs ∧ t.bin = c.bin ∧ t.coden = c.coden

/-- The completion of TDIV and then that of HOTP leave what the completion of CODES leaves, but for the previous and next
code (R201, R205). That `OPC` too agrees holds only because the completions are chained with no start between (the
model's choice, log 12): on the hardware each start sets `OPC` (R22), which ends as 0x09 against 0x0B. -/
def Obligations.TdivThenHotpIsCodes : Prop :=
  ∀ s : State, s.keyv = true → ∃ t u v, exec .tdiv s = .next t ∧ exec .hotp t = .next u ∧ exec .codes s = .next v ∧
    v = { u with code0 := v.code0, code2 := v.code2 }

/-- VALID (R209): with a key and a well-formed candidate it completes without error, writes nothing but the status, and
MATCH tells whether the candidate is one of the three codes CODES shows for the same secret and time. -/
def Obligations.ValidAcceptsExactlyTheWindow : Prop :=
  ∀ s : State, s.keyv = true → s.clen = 6 → (∀ j : Fin 6, 0x30 ≤ (s.cand.getD j 0).toNat ∧ (s.cand.getD j 0).toNat ≤ 0x39) →
    ∃ t w, exec .valid s = .next t ∧ exec .codes s = .next w ∧
      Completed s t t.matched false 0x00 s.keyv ∧
      t = { s with status := t.status, errcode := t.errcode } ∧
      (t.matched = true ↔
        (∀ j : Fin 6, s.cand.getD j 0 = w.code0[j]) ∨ (∀ j : Fin 6, s.cand.getD j 0 = w.code1[j]) ∨
        (∀ j : Fin 6, s.cand.getD j 0 = w.code2[j]))

/-- R209 with R227: without a key VALID ends with NOKEY, else a candidate that is not six digits ends with MALFORMED;
either way MATCH is 0 and nothing but the status changes. -/
def Obligations.ValidRejectsByName : Prop :=
  ∀ s : State,
    (s.keyv = false → ∃ t, exec .valid s = .next t ∧ Completed s t false true 0x02 s.keyv ∧
      t = { s with status := t.status, errcode := t.errcode }) ∧
    (s.keyv = true → (s.clen ≠ 6 ∨ ∃ j : Fin 6, (s.cand.getD j 0).toNat < 0x30 ∨ 0x39 < (s.cand.getD j 0).toNat) →
      ∃ t, exec .valid s = .next t ∧ Completed s t false true 0x05 s.keyv ∧
        t = { s with status := t.status, errcode := t.errcode })

/-- R210, its first half: a code CODES shows is accepted by VALID under the same secret at the same time. -/
def Obligations.ValidAcceptsWhatCodesShows : Prop :=
  ∀ s w u : State, s.keyv = true → exec .codes s = .next w →
    u.keyv = s.keyv → u.klen = s.klen → u.key = s.key → u.time = s.time → u.clen = 6 →
    ((∀ j : Fin 6, u.cand.getD j 0 = w.code0[j]) ∨ (∀ j : Fin 6, u.cand.getD j 0 = w.code1[j]) ∨
      (∀ j : Fin 6, u.cand.getD j 0 = w.code2[j])) →
    ∃ t, exec .valid u = .next t ∧ t.matched = true ∧ t.err = false ∧ t.errcode = 0x00
end

