-- ==== Sys2Proof/Laws/Bytes.lean ====
section
/-! SUPPORT. Laws of byte sequences and byte order (00_scope.md R12, 20_memory.md R68). -/

namespace Sys2Proof.Machine

theorem be_append_singleton (l : List Byte) (b : Byte) : be (l ++ [b]) = be l * 256 + b.toNat := by
  simp [be]

/-- A sequence of `n` bytes has a value below 256^n. -/
theorem be_lt (l : List Byte) : be l < 256 ^ l.length := by
  induction l using List.reverseRecOn with
  | nil => simp [be]
  | append_singleton l b ih =>
    rw [be_append_singleton, List.length_append, List.length_singleton, pow_succ]
    have := b.isLt
    omega

@[simp] theorem bytesBE_length (v n : Nat) : (bytesBE v n).length = n := by simp [bytesBE]

theorem bytesBE_succ (v n : Nat) : bytesBE v (n + 1) = bytesBE (v / 256) n ++ [BitVec.ofNat 8 v] := by
  unfold bytesBE
  rw [List.range_succ, List.map_append]
  congr 1
  · refine List.map_congr_left fun i hi => ?_
    have hi := List.mem_range.1 hi
    congr 1
    rw [Nat.shiftRight_eq_div_pow, Nat.shiftRight_eq_div_pow, show 256 = 2 ^ 8 from rfl, Nat.div_div_eq_div_mul,
      ← pow_add]
    congr 2
    omega
  · simp

/-- `be(bytes_be(v, n)) = v mod 256^n` (R12). -/
theorem be_bytesBE (v n : Nat) : be (bytesBE v n) = v % 256 ^ n := by
  induction n generalizing v with
  | zero => simp [bytesBE, be, Nat.mod_one]
  | succ n ih =>
    have h : v % 256 ^ (n + 1) = v % 256 + 256 * (v / 256 % 256 ^ n) := by rw [Nat.pow_succ', Nat.mod_mul]
    rw [bytesBE_succ, be_append_singleton, ih, BitVec.toNat_ofNat, h]
    omega

/-- A sequence is the packing of its own value. -/
theorem bytesBE_be (l : List Byte) : bytesBE (be l) l.length = l := by
  induction l using List.reverseRecOn with
  | nil => rfl
  | append_singleton l b ih =>
    rw [List.length_append, List.length_singleton, bytesBE_succ, be_append_singleton]
    have hb := b.isLt
    rw [show (be l * 256 + b.toNat) / 256 = be l by omega, ih]
    congr 2
    apply BitVec.eq_of_toNat_eq
    simp only [BitVec.toNat_ofNat]
    omega

/-- Reading a buffer at any index: the byte there, or the default beyond its end. -/
theorem vector_getD {n : Nat} (b : Vector Byte n) (i : Nat) (d : Byte) :
    b.getD i d = if h : i < n then b[i] else d := by
  obtain ⟨a, rfl⟩ := b
  rfl

@[simp] theorem vector_getD_lt {n : Nat} (b : Vector Byte n) (i : Nat) (d : Byte) (h : i < n) : b.getD i d = b[i] := by
  rw [vector_getD, dif_pos h]

theorem vector_getD_ge {n : Nat} (b : Vector Byte n) (i : Nat) (d : Byte) (h : n ≤ i) : b.getD i d = d := by
  rw [vector_getD, dif_neg (Nat.not_lt.2 h)]

@[simp] theorem fill_getElem (n : Nat) (l : List Byte) (i : Nat) (h : i < n) : (fill n l)[i] = l.getD i 0 := by
  simp [fill]

theorem fill_getD (n : Nat) (l : List Byte) (i : Nat) : (fill n l).getD i 0 = if i < n then l.getD i 0 else 0 := by
  rw [vector_getD]
  split <;> simp [*]

@[simp] theorem zeros_getElem (n i : Nat) (h : i < n) : (zeros n)[i] = 0 := by simp [zeros]

/-- A buffer filled from a sequence of its own length holds that sequence. -/
theorem fill_toList (n : Nat) (l : List Byte) (h : l.length = n) : (fill n l).toList = l := by
  apply List.ext_getElem
  · simp [h]
  · intro i h1 h2
    simp [List.getElem?_eq_getElem h2]

theorem fill_nil (n : Nat) : fill n [] = zeros n := by
  apply Vector.ext
  intro i hi
  simp

/-- Writing byte `i` of a 64-bit register: that byte is the written one, every other byte is kept (R65, R68). -/
theorem regByte_setRegByte (v : Word64) (i j : Nat) (b : Byte) (hi : i < 8) (hj : j < 8) :
    regByte 8 (setRegByte v i b) j = if j = i then b else regByte 8 v j := by
  apply BitVec.eq_of_getLsbD_eq
  intro k hk
  have h255 : ∀ m, (255#64).getLsbD m = decide (m < 8) := by
    intro m
    by_cases hm : m < 64
    · exact (by decide : ∀ m : Fin 64, (255#64).getLsbD m = decide (m.val < 8)) ⟨m, hm⟩
    · simp [BitVec.getLsbD_of_ge _ _ (by omega : 64 ≤ m)]; omega
  unfold regByte setRegByte
  simp only [BitVec.getLsbD_extractLsb', BitVec.getLsbD_or, BitVec.getLsbD_and, BitVec.getLsbD_not,
    BitVec.getLsbD_shiftLeft, BitVec.getLsbD_setWidth, BitVec.ofNat_eq_ofNat, h255]
  by_cases h : j = i
  · subst h
    simp [hk, show 8 * (8 - 1 - j) + k < 64 by omega, show ¬ 8 * (8 - 1 - j) + k < 8 * (7 - j) by omega,
      show 8 * (8 - 1 - j) + k - 8 * (7 - j) = k by omega, show k < 64 by omega]
  · rw [if_neg h, BitVec.getLsbD_extractLsb']
    rcases Nat.lt_or_gt_of_ne h with h' | h'
    · simp [hk, show 8 * (8 - 1 - j) + k < 64 by omega,
        show ¬ 8 * (8 - 1 - j) + k - 8 * (7 - i) < 8 by omega,
        BitVec.getLsbD_of_ge b (8 * (8 - 1 - j) + k - 8 * (7 - i)) (by omega)]
    · simp [hk, show 8 * (8 - 1 - j) + k < 64 by omega, show 8 * (8 - 1 - j) + k < 8 * (7 - i) by omega]

/-- Byte `i` of a 64-bit register is a digit of its value in base 256 (R68). -/
theorem regByte_eight (v : Word64) (i : Nat) : regByte 8 v i = BitVec.ofNat 8 (v.toNat / 256 ^ (7 - i)) := by
  apply BitVec.eq_of_toNat_eq
  have : (256 : Nat) ^ (7 - i) = 2 ^ (8 * (7 - i)) := by rw [pow_mul]; norm_num
  simp [regByte, BitVec.extractLsb'_toNat, Nat.shiftRight_eq_div_pow, this]

/-- Byte `i` of a 32-bit register is a digit of its value in base 256 (R68). -/
theorem regByte_four (v : Word32) (i : Nat) : regByte 4 v i = BitVec.ofNat 8 (v.toNat / 256 ^ (3 - i)) := by
  apply BitVec.eq_of_toNat_eq
  have : (256 : Nat) ^ (3 - i) = 2 ^ (8 * (3 - i)) := by rw [pow_mul]; norm_num
  simp [regByte, BitVec.extractLsb'_toNat, Nat.shiftRight_eq_div_pow, this]

/-- Byte `i` of the packing of a number. -/
theorem bytesBE_eq_div (v n : Nat) :
    bytesBE v n = (List.range n).map fun i => BitVec.ofNat 8 (v / 256 ^ (n - 1 - i)) := by
  unfold bytesBE
  refine List.map_congr_left fun i _ => ?_
  rw [Nat.shiftRight_eq_div_pow, show (256 : Nat) = 2 ^ 8 from rfl, ← pow_mul]

/-- A second write of the same byte of a 64-bit register changes nothing. -/
theorem setRegByte_twice (t : Word64) (i : Nat) (v : Byte) : setRegByte (setRegByte t i v) i v = setRegByte t i v := by
  unfold setRegByte
  apply BitVec.eq_of_getLsbD_eq
  intro k hk
  simp only [BitVec.getLsbD_or, BitVec.getLsbD_and, BitVec.getLsbD_not]
  generalize ((255#64 : BitVec 64) <<< (8 * (7 - i))).getLsbD k = x
  generalize (v.setWidth 64 <<< (8 * (7 - i))).getLsbD k = y
  cases x <;> cases y <;> simp

/-- The bytes of a buffer, read one by one. -/
theorem map_range_eq_toList {n : Nat} (v : Vector Byte n) (f : Nat → Byte) (h : ∀ i (hi : i < n), f i = v[i]) :
    (List.range n).map f = v.toList := by
  apply List.ext_getElem
  · simp
  · intro i h1 h2
    simp at h1
    simp [h i h1]

/-- Byte `j` of the first `m` bytes of a buffer. -/
theorem take_getD {n : Nat} (b : Vector Byte n) (m j : Nat) :
    (b.toList.take m).getD j 0 = if j < m then b.getD j 0 else 0 := by
  rw [vector_getD]
  split
  · split
    · rw [List.getD_eq_getElem _ _ (by simp; omega)]
      simp
    · rw [List.getD_eq_default _ _ (by simp; omega)]
  · exact List.getD_eq_default _ _ (by simp; omega)

/-- Two buffers that agree on their first `m` bytes have the same first `m` bytes. -/
theorem take_congr {n : Nat} (b d : Vector Byte n) (m : Nat) (h : ∀ j, j < m → b.getD j 0 = d.getD j 0) :
    b.toList.take m = d.toList.take m := by
  apply List.ext_getElem
  · simp
  · intro j h1 h2
    simp at h1
    simpa [vector_getD, h1] using h j h1.1

theorem fill_toList_getD (n : Nat) (l : List Byte) (i : Nat) :
    (fill n l).toList.getD i 0 = if i < n then l.getD i 0 else 0 := by
  split
  · rename_i h
    rw [List.getD_eq_getElem _ _ (by simpa using h), Vector.getElem_toList, fill_getElem]
  · rename_i h
    rw [List.getD_eq_default _ _ (by simpa using h)]

/-- The front of a buffer filled from a sequence is that sequence. -/
theorem take_fill (n : Nat) (l : List Byte) (h : l.length ≤ n) : (fill n l).toList.take l.length = l := by
  apply List.ext_getElem
  · simp; omega
  · intro i h1 h2
    simp [List.getElem?_eq_getElem h2]

/-- A length that fits its byte register. -/
theorem length_toNat {n : Nat} (h : n ≤ 104) : (BitVec.ofNat 8 n).toNat = n := by
  rw [BitVec.toNat_ofNat, Nat.mod_eq_of_lt (by omega)]

end Sys2Proof.Machine
end

