-- ==== Sys2Proof/Laws/Base32.lean ====
section
/-! SUPPORT. Laws of the Base32 code (40_base32.md R110 to R117): the alphabet and its inverse, groups of five bits as
digits of one number, what the decoder accepts, and bits of both sides. -/

namespace Sys2Proof.Machine

/-! ### The alphabet -/

theorem symbolOf_eq_alphabet : ∀ v, v < 32 → symbolOf v = alphabet.getD v 0 := by decide

theorem symbolVal_symbolOf : ∀ v, v < 32 → symbolVal (symbolOf v) = some v := by decide

theorem symbolOf_mem_alphabet : ∀ v, v < 32 → symbolOf v ∈ alphabet := by decide

theorem symbolOf_ne_pad : ∀ v, v < 32 → symbolOf v ≠ padChar := by decide

theorem symbolVal_some {c : Byte} {v : Nat} (h : symbolVal c = some v) : v < 32 ∧ symbolOf v = c := by
  have key : ∀ c : Byte, (symbolVal c).all (fun v => decide (v < 32) && symbolOf v == c) = true := by decide +kernel
  have := key c
  rw [h] at this
  simpa using this

theorem symbolVals_map {vs : List Nat} (h : ∀ v ∈ vs, v < 32) : symbolVals (vs.map symbolOf) = some vs := by
  induction vs with
  | nil => rfl
  | cons v vs ih =>
    rw [List.map_cons, symbolVals, symbolVal_symbolOf v (h v (by simp)), ih fun u hu => h u (by simp [hu])]

theorem symbolVals_some {t : List Byte} {vs : List Nat} (h : symbolVals t = some vs) :
    (∀ v ∈ vs, v < 32) ∧ t = vs.map symbolOf := by
  induction t generalizing vs with
  | nil => cases h; simp
  | cons c t ih =>
    rw [symbolVals] at h
    split at h
    · rename_i v us hv hus
      cases h
      obtain ⟨h1, h2⟩ := symbolVal_some hv
      obtain ⟨h3, h4⟩ := ih hus
      refine ⟨fun u hu => ?_, by rw [List.map_cons, h2, h4]⟩
      rcases List.mem_cons.1 hu with rfl | hu
      · exact h1
      · exact h3 u hu
    · cases h

/-! ### Groups of five bits -/

/-- The lowest `l` groups of five bits of a number, the most significant first. -/
def groupsOf (x l : Nat) : List Nat := (List.range l).map fun j => (x >>> (5 * (l - 1 - j))) % 32

@[simp] theorem groupsOf_length (x l : Nat) : (groupsOf x l).length = l := by simp [groupsOf]

theorem groupsOf_lt {x l v : Nat} (h : v ∈ groupsOf x l) : v < 32 := by
  obtain ⟨j, -, rfl⟩ := List.mem_map.1 h
  exact Nat.mod_lt _ (by decide)

theorem groupsOf_succ (x l : Nat) : groupsOf x (l + 1) = groupsOf (x / 32) l ++ [x % 32] := by
  unfold groupsOf
  rw [List.range_succ, List.map_append]
  congr 1
  · refine List.map_congr_left fun i hi => ?_
    have hi := List.mem_range.1 hi
    congr 1
    rw [Nat.shiftRight_eq_div_pow, Nat.shiftRight_eq_div_pow, show 32 = 2 ^ 5 from rfl, Nat.div_div_eq_div_mul, ← pow_add]
    congr 2
    omega
  · simp

theorem groupsValue_append (vs : List Nat) (v : Nat) : groupsValue (vs ++ [v]) = groupsValue vs * 32 + v := by
  simp [groupsValue]

theorem groupsValue_groupsOf (x l : Nat) : groupsValue (groupsOf x l) = x % 32 ^ l := by
  induction l generalizing x with
  | zero => simp [groupsOf, groupsValue, Nat.mod_one]
  | succ l ih =>
    rw [groupsOf_succ, groupsValue_append, ih, Nat.pow_succ', Nat.mod_mul]
    omega

theorem groupsValue_lt {vs : List Nat} (h : ∀ v ∈ vs, v < 32) : groupsValue vs < 32 ^ vs.length := by
  induction vs using List.reverseRecOn with
  | nil => simp [groupsValue]
  | append_singleton vs v ih =>
    rw [groupsValue_append, List.length_append, List.length_singleton, pow_succ]
    have h1 := ih fun u hu => h u (by simp [hu])
    have h2 := h v (by simp)
    omega

theorem groupsOf_groupsValue {vs : List Nat} (h : ∀ v ∈ vs, v < 32) : groupsOf (groupsValue vs) vs.length = vs := by
  induction vs using List.reverseRecOn with
  | nil => rfl
  | append_singleton vs v ih =>
    have h2 := h v (by simp)
    rw [List.length_append, List.length_singleton, groupsOf_succ, groupsValue_append,
      show (groupsValue vs * 32 + v) / 32 = groupsValue vs by omega, ih fun u hu => h u (by simp [hu])]
    congr 2
    omega

/-- The left-over bits of a text are those of its last symbol (R115). -/
theorem groupsValue_mod_two_pow (vs : List Nat) (r : Nat) (hr : r ≤ 5) :
    groupsValue vs % 2 ^ r = vs.getLastD 0 % 2 ^ r := by
  induction vs using List.reverseRecOn with
  | nil => simp [groupsValue]
  | append_singleton vs v _ =>
    rw [groupsValue_append, List.getLastD_concat]
    obtain ⟨k, hk⟩ := pow_dvd_pow 2 hr
    rw [show groupsValue vs * 32 = 2 ^ r * (k * groupsValue vs) by
      rw [show (32 : Nat) = 2 ^ 5 from rfl, hk]; ring]
    exact Nat.mul_add_mod _ _ _

/-! ### The encoder -/

theorem b32enc_eq (b : List Byte) :
    b32enc b = (groupsOf (be b <<< (5 * encodedLength b.length - 8 * b.length)) (encodedLength b.length)).map symbolOf := by
  unfold b32enc groupsOf
  rw [List.map_map]
  rfl

@[simp] theorem b32enc_length (b : List Byte) : (b32enc b).length = (8 * b.length + 4) / 5 := by
  rw [b32enc_eq, List.length_map, groupsOf_length, encodedLength]

theorem b32encp_eq (b : List Byte) :
    b32encp b = b32enc b ++ List.replicate ((8 - (b32enc b).length % 8) % 8) padChar := rfl

theorem b32encp_length (b : List Byte) : (b32encp b).length = 8 * ((b.length + 4) / 5) := by
  rw [b32encp_eq, List.length_append, List.length_replicate, b32enc_length]
  omega

/-- The number the encoder cuts into groups fits its length. -/
theorem be_shift_lt (b : List Byte) :
    be b <<< (5 * encodedLength b.length - 8 * b.length) < 32 ^ encodedLength b.length := by
  have h := be_lt b
  rw [Nat.shiftLeft_eq, show (32 : Nat) = 2 ^ 5 from rfl, ← pow_mul]
  rw [show (256 : Nat) = 2 ^ 8 from rfl, ← pow_mul] at h
  have he : 5 * encodedLength b.length = 8 * b.length + (5 * encodedLength b.length - 8 * b.length) := by
    unfold encodedLength; omega
  calc be b * 2 ^ (5 * encodedLength b.length - 8 * b.length)
      < 2 ^ (8 * b.length) * 2 ^ (5 * encodedLength b.length - 8 * b.length) :=
        Nat.mul_lt_mul_of_pos_right h (by positivity)
    _ = 2 ^ (5 * encodedLength b.length) := by rw [← pow_add, ← he]

/-! ### The decoder -/

theorem padCount_append (vs : List Nat) (p : Nat) (h : ∀ v ∈ vs, v < 32) :
    padCount (vs.map symbolOf ++ List.replicate p padChar) = p := by
  unfold padCount
  rw [List.reverse_append, List.reverse_replicate, List.takeWhile_append_of_pos (by simp)]
  have : (vs.map symbolOf).reverse.takeWhile (· == padChar) = [] := by
    rw [← List.map_reverse]
    cases hr : vs.reverse with
    | nil => rfl
    | cons v us =>
      have hv : v ∈ vs := by rw [← List.mem_reverse, hr]; simp
      rw [List.map_cons, List.takeWhile_cons_of_neg (by simpa using symbolOf_ne_pad v (h v hv))]
  rw [this]
  simp

/-- A text ends in its run of pads. -/
theorem eq_take_append_pads (t : List Byte) :
    t = t.take (t.length - padCount t) ++ List.replicate (padCount t) padChar := by
  have hle : padCount t ≤ t.length := by
    unfold padCount
    exact (List.takeWhile_prefix _).length_le.trans (by simp)
  have key : List.takeWhile (· == padChar) t.reverse = List.replicate (padCount t) padChar := by
    refine List.eq_replicate_of_mem fun c hc => ?_
    simpa using List.mem_takeWhile_imp hc
  have h2 : t.reverse.take (padCount t) = List.replicate (padCount t) padChar := by
    rw [← key]
    exact (List.prefix_iff_eq_take.1 (List.takeWhile_prefix _)).symm
  have h3 : t.drop (t.length - padCount t) = List.replicate (padCount t) padChar := by
    rw [← List.reverse_inj, ← List.take_reverse, h2, List.reverse_replicate]
  rw [← h3, List.take_append_drop]

/-- The two length checks, spelt out (R115, R116). -/
theorem shapeOk_iff (d p : Nat) : shapeOk d p = true ↔
    ((p = 0 ∧ (d % 8 = 0 ∨ d % 8 = 2 ∨ d % 8 = 4 ∨ d % 8 = 5 ∨ d % 8 = 7)) ∨
      (d % 8 = 2 ∧ p = 6) ∨ (d % 8 = 4 ∧ p = 4) ∨ (d % 8 = 5 ∧ p = 3) ∨ (d % 8 = 7 ∧ p = 1)) := by
  unfold shapeOk
  split
  · subst p; simp
  · rename_i hp
    simp only [hp, false_and, false_or, Bool.and_eq_true, decide_eq_true_eq, List.contains_cons, List.contains_nil,
      Bool.or_false, Bool.or_eq_true, beq_iff_eq, Prod.mk.injEq]
    refine ⟨fun h => h.2, fun h => ⟨?_, h⟩⟩
    rcases h with h | h | h | h <;> omega

/-- The decoder on data symbols and pads. -/
theorem b32dec_symbols {vs : List Nat} (p : Nat) (h : ∀ v ∈ vs, v < 32) :
    b32dec (vs.map symbolOf ++ List.replicate p padChar) =
      if shapeOk vs.length p = true ∧ groupsValue vs % 2 ^ (5 * vs.length % 8) = 0 then
        some (bytesBE (groupsValue vs >>> (5 * vs.length % 8)) (5 * vs.length / 8))
      else none := by
  unfold b32dec
  simp only [padCount_append vs p h, List.length_append, List.length_map, List.length_replicate, Nat.add_sub_cancel]
  rw [List.take_left' (by simp), symbolVals_map h]
  simp

/-- Everything the decoder can accept. -/
theorem b32dec_some {t b : List Byte} (h : b32dec t = some b) :
    ∃ (vs : List Nat) (p : Nat), (∀ v ∈ vs, v < 32) ∧ t = vs.map symbolOf ++ List.replicate p padChar ∧
      shapeOk vs.length p = true ∧ groupsValue vs % 2 ^ (5 * vs.length % 8) = 0 ∧
      b = bytesBE (groupsValue vs >>> (5 * vs.length % 8)) (5 * vs.length / 8) := by
  have h0 := h
  unfold b32dec at h
  simp only at h
  split at h
  · cases h
  · rename_i vs hvs
    obtain ⟨h1, h2⟩ := symbolVals_some hvs
    have ht : t = vs.map symbolOf ++ List.replicate (padCount t) padChar := by
      rw [← h2]; exact eq_take_append_pads t
    refine ⟨vs, padCount t, h1, ht, ?_⟩
    generalize padCount t = p at ht
    rw [ht, b32dec_symbols p h1] at h0
    split at h0
    · rename_i hc
      exact ⟨hc.1, hc.2, (Option.some.inj h0).symm⟩
    · cases h0

theorem map_alphabet {vs : List Nat} (h : ∀ v ∈ vs, v < 32) : (vs.map fun v => alphabet.getD v 0) = vs.map symbolOf :=
  List.map_congr_left fun v hv => (symbolOf_eq_alphabet v (h v hv)).symm

/-- The decoder accepts exactly the texts of R116. -/
theorem acceptedText_iff (t : List Byte) : AcceptedText t ↔ ∃ b, b32dec t = some b := by
  constructor
  · rintro ⟨vs, p, h1, rfl, h3, h4⟩
    rw [map_alphabet h1]
    have hr : 5 * vs.length % 8 ≤ 5 := by omega
    rw [← groupsValue_mod_two_pow _ _ hr] at h4
    exact ⟨_, (b32dec_symbols p h1).trans (if_pos ⟨(shapeOk_iff _ _).2 h3, h4⟩)⟩
  · rintro ⟨b, hb⟩
    obtain ⟨vs, p, h1, h2, h3, h4, -⟩ := b32dec_some hb
    have h3 := (shapeOk_iff _ _).1 h3
    have hr : 5 * vs.length % 8 ≤ 5 := by omega
    rw [groupsValue_mod_two_pow _ _ hr] at h4
    exact ⟨vs, p, h1, by rw [map_alphabet h1]; exact h2, h3, h4⟩

/-! ### Bits -/

theorem be_cons (c : Byte) (b : List Byte) : be (c :: b) = c.toNat * 256 ^ b.length + be b := by
  induction b using List.reverseRecOn with
  | nil => simp [be]
  | append_singleton b d ih =>
    rw [← List.cons_append, be_append_singleton, be_append_singleton, ih, List.length_append, List.length_singleton, pow_succ]
    ring

/-- Bit `n` of a byte sequence is bit `8·len - 1 - n` of its value (R111). -/
theorem bitAt_eq_testBit (b : List Byte) (n : Nat) (h : n < 8 * b.length) :
    bitAt b n = (be b).testBit (8 * b.length - 1 - n) := by
  induction b using List.reverseRecOn with
  | nil => simp at h
  | append_singleton b c ih =>
    rw [List.length_append, List.length_singleton] at h ⊢
    rw [be_append_singleton]
    have e : be b * 256 + c.toNat = 2 ^ 8 * be b + c.toNat := by ring
    rw [e, Nat.testBit_two_pow_mul_add _ c.isLt]
    unfold bitAt at ih ⊢
    by_cases hn : n < 8 * b.length
    · rw [List.getD_append _ _ _ _ (by omega), ih hn, if_neg (by omega)]
      congr 1
      omega
    · rw [List.getD_append_right _ _ _ _ (by omega), if_pos (by omega), show n / 8 - b.length = 0 by omega]
      show c.toNat.testBit (7 - n % 8) = _
      congr 1
      omega

theorem bitAt_beyond (b : List Byte) (n : Nat) (h : 8 * b.length ≤ n) : bitAt b n = false := by
  unfold bitAt
  rw [List.getD_eq_default _ _ (by omega)]
  simp

/-- Bit `5j + k` of a text is bit `k` of its symbol `j`, from the left. -/
theorem groupsValue_testBit {vs : List Nat} (h : ∀ v ∈ vs, v < 32) (n : Nat) (hn : n < 5 * vs.length) :
    (groupsValue vs).testBit (5 * vs.length - 1 - n) = (vs.getD (n / 5) 0).testBit (4 - n % 5) := by
  induction vs using List.reverseRecOn with
  | nil => simp at hn
  | append_singleton vs v ih =>
    rw [List.length_append, List.length_singleton] at hn ⊢
    rw [groupsValue_append, show groupsValue vs * 32 + v = 2 ^ 5 * groupsValue vs + v by ring,
      Nat.testBit_two_pow_mul_add _ (h v (by simp))]
    by_cases hl : n < 5 * vs.length
    · rw [List.getD_append _ _ _ _ (by omega), ← ih (fun u hu => h u (by simp [hu])) hl, if_neg (by omega)]
      congr 1
      omega
    · rw [List.getD_append_right _ _ _ _ (by omega), if_pos (by omega), show n / 5 - vs.length = 0 by omega]
      show v.testBit _ = v.testBit _
      congr 1
      omega

theorem groupsOf_testBit (x l j k : Nat) (hj : j < l) (hk : k < 5) :
    ((groupsOf x l).getD j 0).testBit (4 - k) = x.testBit (5 * l - 1 - (5 * j + k)) := by
  rw [List.getD_eq_getElem _ _ (by simpa using hj)]
  simp only [groupsOf, List.getElem_map, List.getElem_range]
  rw [show 32 = 2 ^ 5 from rfl, Nat.testBit_mod_two_pow, Nat.testBit_shiftRight]
  simp only [show 4 - k < 5 by omega, decide_true, Bool.true_and]
  congr 1
  omega

end Sys2Proof.Machine
end

