-- ==== Sys2Proof/Laws/State.lean ====
section
/-! SUPPORT. One lemma per field of State per shared update, each true by `rfl`, so that no proof unfolds a record
update. -/

namespace Sys2Proof.Machine

section Start
variable (s : State) (v : Byte)

@[simp] theorem State.start_opc : (s.start v).opc = v := rfl
@[simp] theorem State.start_status : (s.start v).status = startStatus s.status := rfl
@[simp] theorem State.start_errcode : (s.start v).errcode = 0 := rfl
@[simp] theorem State.start_ctrl : (s.start v).ctrl = s.ctrl := rfl
@[simp] theorem State.start_dlen : (s.start v).dlen = s.dlen := rfl
@[simp] theorem State.start_tlen : (s.start v).tlen = s.tlen := rfl
@[simp] theorem State.start_clen : (s.start v).clen = s.clen := rfl
@[simp] theorem State.start_klen : (s.start v).klen = s.klen := rfl
@[simp] theorem State.start_time : (s.start v).time = s.time := rfl
@[simp] theorem State.start_ctr : (s.start v).ctr = s.ctr := rfl
@[simp] theorem State.start_bin : (s.start v).bin = s.bin := rfl
@[simp] theorem State.start_coden : (s.start v).coden = s.coden := rfl
@[simp] theorem State.start_cand : (s.start v).cand = s.cand := rfl
@[simp] theorem State.start_code0 : (s.start v).code0 = s.code0 := rfl
@[simp] theorem State.start_code1 : (s.start v).code1 = s.code1 := rfl
@[simp] theorem State.start_code2 : (s.start v).code2 = s.code2 := rfl
@[simp] theorem State.start_mac : (s.start v).mac = s.mac := rfl
@[simp] theorem State.start_offs : (s.start v).offs = s.offs := rfl
@[simp] theorem State.start_dbuf : (s.start v).dbuf = s.dbuf := rfl
@[simp] theorem State.start_tbuf : (s.start v).tbuf = s.tbuf := rfl
@[simp] theorem State.start_key : (s.start v).key = s.key := rfl
@[simp] theorem State.start_queue : (s.start v).queue = s.queue := rfl
@[simp] theorem State.start_rdata : (s.start v).rdata = s.rdata := rfl

end Start

section Succeed
variable (s : State) (hit : Bool)

@[simp] theorem State.succeed_opc : (s.succeed hit).opc = s.opc := rfl
@[simp] theorem State.succeed_status : (s.succeed hit).status = completionStatus hit false s.status := rfl
@[simp] theorem State.succeed_errcode : (s.succeed hit).errcode = 0 := rfl
@[simp] theorem State.succeed_ctrl : (s.succeed hit).ctrl = s.ctrl := rfl
@[simp] theorem State.succeed_dlen : (s.succeed hit).dlen = s.dlen := rfl
@[simp] theorem State.succeed_tlen : (s.succeed hit).tlen = s.tlen := rfl
@[simp] theorem State.succeed_clen : (s.succeed hit).clen = s.clen := rfl
@[simp] theorem State.succeed_klen : (s.succeed hit).klen = s.klen := rfl
@[simp] theorem State.succeed_time : (s.succeed hit).time = s.time := rfl
@[simp] theorem State.succeed_ctr : (s.succeed hit).ctr = s.ctr := rfl
@[simp] theorem State.succeed_bin : (s.succeed hit).bin = s.bin := rfl
@[simp] theorem State.succeed_coden : (s.succeed hit).coden = s.coden := rfl
@[simp] theorem State.succeed_cand : (s.succeed hit).cand = s.cand := rfl
@[simp] theorem State.succeed_code0 : (s.succeed hit).code0 = s.code0 := rfl
@[simp] theorem State.succeed_code1 : (s.succeed hit).code1 = s.code1 := rfl
@[simp] theorem State.succeed_code2 : (s.succeed hit).code2 = s.code2 := rfl
@[simp] theorem State.succeed_mac : (s.succeed hit).mac = s.mac := rfl
@[simp] theorem State.succeed_offs : (s.succeed hit).offs = s.offs := rfl
@[simp] theorem State.succeed_dbuf : (s.succeed hit).dbuf = s.dbuf := rfl
@[simp] theorem State.succeed_tbuf : (s.succeed hit).tbuf = s.tbuf := rfl
@[simp] theorem State.succeed_key : (s.succeed hit).key = s.key := rfl
@[simp] theorem State.succeed_queue : (s.succeed hit).queue = s.queue := rfl
@[simp] theorem State.succeed_rdata : (s.succeed hit).rdata = s.rdata := rfl

end Succeed

section Errorentry
variable (s : State) (e : ErrorCode)

@[simp] theorem State.errorEntry_opc : (s.errorEntry e).opc = s.opc := rfl
@[simp] theorem State.errorEntry_status : (s.errorEntry e).status = completionStatus false true s.status := rfl
@[simp] theorem State.errorEntry_errcode : (s.errorEntry e).errcode = e.code := rfl
@[simp] theorem State.errorEntry_ctrl : (s.errorEntry e).ctrl = s.ctrl := rfl
@[simp] theorem State.errorEntry_dlen : (s.errorEntry e).dlen = s.dlen := rfl
@[simp] theorem State.errorEntry_tlen : (s.errorEntry e).tlen = s.tlen := rfl
@[simp] theorem State.errorEntry_clen : (s.errorEntry e).clen = s.clen := rfl
@[simp] theorem State.errorEntry_klen : (s.errorEntry e).klen = s.klen := rfl
@[simp] theorem State.errorEntry_time : (s.errorEntry e).time = s.time := rfl
@[simp] theorem State.errorEntry_ctr : (s.errorEntry e).ctr = s.ctr := rfl
@[simp] theorem State.errorEntry_bin : (s.errorEntry e).bin = s.bin := rfl
@[simp] theorem State.errorEntry_coden : (s.errorEntry e).coden = s.coden := rfl
@[simp] theorem State.errorEntry_cand : (s.errorEntry e).cand = s.cand := rfl
@[simp] theorem State.errorEntry_code0 : (s.errorEntry e).code0 = s.code0 := rfl
@[simp] theorem State.errorEntry_code1 : (s.errorEntry e).code1 = s.code1 := rfl
@[simp] theorem State.errorEntry_code2 : (s.errorEntry e).code2 = s.code2 := rfl
@[simp] theorem State.errorEntry_mac : (s.errorEntry e).mac = s.mac := rfl
@[simp] theorem State.errorEntry_offs : (s.errorEntry e).offs = s.offs := rfl
@[simp] theorem State.errorEntry_dbuf : (s.errorEntry e).dbuf = s.dbuf := rfl
@[simp] theorem State.errorEntry_tbuf : (s.errorEntry e).tbuf = s.tbuf := rfl
@[simp] theorem State.errorEntry_key : (s.errorEntry e).key = s.key := rfl
@[simp] theorem State.errorEntry_queue : (s.errorEntry e).queue = s.queue := rfl
@[simp] theorem State.errorEntry_rdata : (s.errorEntry e).rdata = s.rdata := rfl

end Errorentry

section Puttruncation
variable (s : State) (m : Vector Byte 20)

@[simp] theorem State.putTruncation_opc : (s.putTruncation m).opc = s.opc := rfl
@[simp] theorem State.putTruncation_status : (s.putTruncation m).status = s.status := rfl
@[simp] theorem State.putTruncation_errcode : (s.putTruncation m).errcode = s.errcode := rfl
@[simp] theorem State.putTruncation_ctrl : (s.putTruncation m).ctrl = s.ctrl := rfl
@[simp] theorem State.putTruncation_dlen : (s.putTruncation m).dlen = s.dlen := rfl
@[simp] theorem State.putTruncation_tlen : (s.putTruncation m).tlen = s.tlen := rfl
@[simp] theorem State.putTruncation_clen : (s.putTruncation m).clen = s.clen := rfl
@[simp] theorem State.putTruncation_klen : (s.putTruncation m).klen = s.klen := rfl
@[simp] theorem State.putTruncation_time : (s.putTruncation m).time = s.time := rfl
@[simp] theorem State.putTruncation_ctr : (s.putTruncation m).ctr = s.ctr := rfl
@[simp] theorem State.putTruncation_bin : (s.putTruncation m).bin = (truncate m).bin := rfl
@[simp] theorem State.putTruncation_coden : (s.putTruncation m).coden = BitVec.ofNat 32 (truncate m).code := rfl
@[simp] theorem State.putTruncation_cand : (s.putTruncation m).cand = s.cand := rfl
@[simp] theorem State.putTruncation_code0 : (s.putTruncation m).code0 = s.code0 := rfl
@[simp] theorem State.putTruncation_code1 : (s.putTruncation m).code1 = (truncate m).digits := rfl
@[simp] theorem State.putTruncation_code2 : (s.putTruncation m).code2 = s.code2 := rfl
@[simp] theorem State.putTruncation_mac : (s.putTruncation m).mac = s.mac := rfl
@[simp] theorem State.putTruncation_offs : (s.putTruncation m).offs = (truncate m).offset := rfl
@[simp] theorem State.putTruncation_dbuf : (s.putTruncation m).dbuf = s.dbuf := rfl
@[simp] theorem State.putTruncation_tbuf : (s.putTruncation m).tbuf = s.tbuf := rfl
@[simp] theorem State.putTruncation_key : (s.putTruncation m).key = s.key := rfl
@[simp] theorem State.putTruncation_queue : (s.putTruncation m).queue = s.queue := rfl
@[simp] theorem State.putTruncation_rdata : (s.putTruncation m).rdata = s.rdata := rfl

end Puttruncation

section ResetCore
variable (s : State)

@[simp] theorem State.resetCore_opc : s.resetCore.opc = State.reset.opc := rfl
@[simp] theorem State.resetCore_status : s.resetCore.status = State.reset.status := rfl
@[simp] theorem State.resetCore_errcode : s.resetCore.errcode = State.reset.errcode := rfl
@[simp] theorem State.resetCore_ctrl : s.resetCore.ctrl = State.reset.ctrl := rfl
@[simp] theorem State.resetCore_dlen : s.resetCore.dlen = State.reset.dlen := rfl
@[simp] theorem State.resetCore_tlen : s.resetCore.tlen = State.reset.tlen := rfl
@[simp] theorem State.resetCore_clen : s.resetCore.clen = State.reset.clen := rfl
@[simp] theorem State.resetCore_klen : s.resetCore.klen = State.reset.klen := rfl
@[simp] theorem State.resetCore_time : s.resetCore.time = State.reset.time := rfl
@[simp] theorem State.resetCore_ctr : s.resetCore.ctr = State.reset.ctr := rfl
@[simp] theorem State.resetCore_bin : s.resetCore.bin = State.reset.bin := rfl
@[simp] theorem State.resetCore_coden : s.resetCore.coden = State.reset.coden := rfl
@[simp] theorem State.resetCore_cand : s.resetCore.cand = State.reset.cand := rfl
@[simp] theorem State.resetCore_code0 : s.resetCore.code0 = State.reset.code0 := rfl
@[simp] theorem State.resetCore_code1 : s.resetCore.code1 = State.reset.code1 := rfl
@[simp] theorem State.resetCore_code2 : s.resetCore.code2 = State.reset.code2 := rfl
@[simp] theorem State.resetCore_mac : s.resetCore.mac = State.reset.mac := rfl
@[simp] theorem State.resetCore_offs : s.resetCore.offs = State.reset.offs := rfl
@[simp] theorem State.resetCore_dbuf : s.resetCore.dbuf = State.reset.dbuf := rfl
@[simp] theorem State.resetCore_tbuf : s.resetCore.tbuf = State.reset.tbuf := rfl
@[simp] theorem State.resetCore_key : s.resetCore.key = State.reset.key := rfl
@[simp] theorem State.resetCore_queue : s.resetCore.queue = s.queue := rfl
@[simp] theorem State.resetCore_rdata : s.resetCore.rdata = State.reset.rdata := rfl

end ResetCore

section BusCycle
variable (s : State) (p : Pins)

@[simp] theorem busCycle_opc : (busCycle s p).opc = (cycleCore s p).opc := rfl
@[simp] theorem busCycle_status : (busCycle s p).status = (cycleCore s p).status := rfl
@[simp] theorem busCycle_errcode : (busCycle s p).errcode = (cycleCore s p).errcode := rfl
@[simp] theorem busCycle_ctrl : (busCycle s p).ctrl = (cycleCore s p).ctrl := rfl
@[simp] theorem busCycle_dlen : (busCycle s p).dlen = (cycleCore s p).dlen := rfl
@[simp] theorem busCycle_tlen : (busCycle s p).tlen = (cycleCore s p).tlen := rfl
@[simp] theorem busCycle_clen : (busCycle s p).clen = (cycleCore s p).clen := rfl
@[simp] theorem busCycle_klen : (busCycle s p).klen = (cycleCore s p).klen := rfl
@[simp] theorem busCycle_time : (busCycle s p).time = (cycleCore s p).time := rfl
@[simp] theorem busCycle_ctr : (busCycle s p).ctr = (cycleCore s p).ctr := rfl
@[simp] theorem busCycle_bin : (busCycle s p).bin = (cycleCore s p).bin := rfl
@[simp] theorem busCycle_coden : (busCycle s p).coden = (cycleCore s p).coden := rfl
@[simp] theorem busCycle_cand : (busCycle s p).cand = (cycleCore s p).cand := rfl
@[simp] theorem busCycle_code0 : (busCycle s p).code0 = (cycleCore s p).code0 := rfl
@[simp] theorem busCycle_code1 : (busCycle s p).code1 = (cycleCore s p).code1 := rfl
@[simp] theorem busCycle_code2 : (busCycle s p).code2 = (cycleCore s p).code2 := rfl
@[simp] theorem busCycle_mac : (busCycle s p).mac = (cycleCore s p).mac := rfl
@[simp] theorem busCycle_offs : (busCycle s p).offs = (cycleCore s p).offs := rfl
@[simp] theorem busCycle_dbuf : (busCycle s p).dbuf = (cycleCore s p).dbuf := rfl
@[simp] theorem busCycle_tbuf : (busCycle s p).tbuf = (cycleCore s p).tbuf := rfl
@[simp] theorem busCycle_key : (busCycle s p).key = (cycleCore s p).key := rfl
@[simp] theorem busCycle_queue : (busCycle s p).queue = (cycleCore s p).queue := rfl
@[simp] theorem busCycle_rdata : (busCycle s p).rdata = rdataPin s p := rfl

end BusCycle

end Sys2Proof.Machine
end

