-- ==== Sys2Proof/Laws/Flags.lean ====
section
/-! SUPPORT. What each status update does to each bit of `STATUS` and `CTRL` (10_state.md R25, R27). -/

namespace Sys2Proof.Machine

/-- A single-bit write sets that bit and keeps the others. -/
theorem getLsbD_putBit (v : Byte) (i j : Nat) (b : Bool) (hj : j < 8) :
    (putBit v i b).getLsbD j = if j = i then b else v.getLsbD j := by
  unfold putBit
  rcases Nat.lt_trichotomy j i with h | h | h
  · cases b <;> simp [hj, show j ≠ i by omega, h]
  · subst h
    cases b <;> simp [hj]
  · cases b <;> simp [hj, show j ≠ i by omega, show ¬ j < i by omega, show ¬ j - i = 0 by omega]

/-- Every bit of `STATUS` after a start (R91). -/
theorem getLsbD_startStatus (v : Byte) (j : Nat) (hj : j < 8) :
    (startStatus v).getLsbD j = if j = 0 then true else if j ≤ 3 then false else v.getLsbD j := by
  simp only [startStatus, getLsbD_putBit _ _ _ _ hj]
  by_cases h0 : j = 0
  · simp [h0]
  · by_cases h1 : j = 1
    · simp [h1]
    · by_cases h2 : j = 2
      · simp [h2]
      · by_cases h3 : j = 3
        · simp [h3]
        · simp only [if_neg h0, if_neg h1, if_neg h2, if_neg h3, if_neg (show ¬ j ≤ 3 by omega)]

/-- Every bit of `STATUS` after a completion (R93). -/
theorem getLsbD_completionStatus (hit err : Bool) (v : Byte) (j : Nat) (hj : j < 8) :
    (completionStatus hit err v).getLsbD j =
      if j = 0 then false else if j = 1 then true else if j = 2 then err else if j = 3 then hit else v.getLsbD j := by
  simp only [completionStatus, getLsbD_putBit _ _ _ _ hj]
  by_cases h0 : j = 0
  · simp [h0]
  · by_cases h1 : j = 1 <;> simp [h0, h1]

section Start
variable (s : State) (v : Byte)

@[simp] theorem State.start_busy : (s.start v).busy = true := getLsbD_startStatus s.status 0 (by decide)
@[simp] theorem State.start_done : (s.start v).done = false := getLsbD_startStatus s.status 1 (by decide)
@[simp] theorem State.start_err : (s.start v).err = false := getLsbD_startStatus s.status 2 (by decide)
@[simp] theorem State.start_matched : (s.start v).matched = false := getLsbD_startStatus s.status 3 (by decide)
@[simp] theorem State.start_keyv : (s.start v).keyv = s.keyv := getLsbD_startStatus s.status 4 (by decide)
@[simp] theorem State.start_ien : (s.start v).ien = s.ien := rfl

end Start

section Succeed
variable (s : State) (hit : Bool)

@[simp] theorem State.succeed_busy : (s.succeed hit).busy = false :=
  getLsbD_completionStatus hit false s.status 0 (by decide)
@[simp] theorem State.succeed_done : (s.succeed hit).done = true :=
  getLsbD_completionStatus hit false s.status 1 (by decide)
@[simp] theorem State.succeed_err : (s.succeed hit).err = false :=
  getLsbD_completionStatus hit false s.status 2 (by decide)
@[simp] theorem State.succeed_matched : (s.succeed hit).matched = hit :=
  getLsbD_completionStatus hit false s.status 3 (by decide)
@[simp] theorem State.succeed_keyv : (s.succeed hit).keyv = s.keyv :=
  getLsbD_completionStatus hit false s.status 4 (by decide)
@[simp] theorem State.succeed_ien : (s.succeed hit).ien = s.ien := rfl

end Succeed

section ErrorEntry
variable (s : State) (e : ErrorCode)

@[simp] theorem State.errorEntry_busy : (s.errorEntry e).busy = false :=
  getLsbD_completionStatus false true s.status 0 (by decide)
@[simp] theorem State.errorEntry_done : (s.errorEntry e).done = true :=
  getLsbD_completionStatus false true s.status 1 (by decide)
@[simp] theorem State.errorEntry_err : (s.errorEntry e).err = true :=
  getLsbD_completionStatus false true s.status 2 (by decide)
@[simp] theorem State.errorEntry_matched : (s.errorEntry e).matched = false :=
  getLsbD_completionStatus false true s.status 3 (by decide)
@[simp] theorem State.errorEntry_keyv : (s.errorEntry e).keyv = s.keyv :=
  getLsbD_completionStatus false true s.status 4 (by decide)
@[simp] theorem State.errorEntry_ien : (s.errorEntry e).ien = s.ien := rfl

end ErrorEntry

section ResetCore
variable (s : State)

@[simp] theorem State.resetCore_busy : s.resetCore.busy = false := by simp [State.busy, State.reset]
@[simp] theorem State.resetCore_done : s.resetCore.done = false := by simp [State.done, State.reset]
@[simp] theorem State.resetCore_err : s.resetCore.err = false := by simp [State.err, State.reset]
@[simp] theorem State.resetCore_matched : s.resetCore.matched = false := by simp [State.matched, State.reset]
@[simp] theorem State.resetCore_keyv : s.resetCore.keyv = false := by simp [State.keyv, State.reset]
@[simp] theorem State.resetCore_irq : s.resetCore.irq = false := by simp [State.irq]

end ResetCore

/-- A status update of bits 0 to 4 keeps the reserved bits of `STATUS`: a byte below 32 stays below 32. -/
theorem putBit_lt_32 : ∀ (v : Byte) (i : Fin 5) (b : Bool), v.toNat < 32 → (putBit v i b).toNat < 32 := by
  decide +kernel

theorem startStatus_lt_32 {v : Byte} (h : v.toNat < 32) : (startStatus v).toNat < 32 :=
  putBit_lt_32 _ 0 _ (putBit_lt_32 _ 1 _ (putBit_lt_32 _ 2 _ (putBit_lt_32 _ 3 _ h)))

theorem completionStatus_lt_32 {v : Byte} (hit err : Bool) (h : v.toNat < 32) :
    (completionStatus hit err v).toNat < 32 :=
  putBit_lt_32 _ 1 _ (putBit_lt_32 _ 0 _ (putBit_lt_32 _ 2 _ (putBit_lt_32 _ 3 _ h)))

/-- A second completion status overwrites the first. -/
theorem completionStatus_twice : ∀ (hit err hit' err' : Bool) (v : Byte),
    completionStatus hit' err' (completionStatus hit err v) = completionStatus hit' err' v := by
  decide +kernel

/-- A write to `STATUS` clears DONE when bit 1 of the byte is set, and keeps every other bit. -/
theorem getLsbD_ackStatus (st v : Byte) (j : Nat) (hj : j < 8) :
    (ackStatus st v).getLsbD j = if j = 1 then st.getLsbD 1 && !v.getLsbD 1 else st.getLsbD j := by
  unfold ackStatus
  split <;> rename_i hv
  · rw [getLsbD_putBit _ _ _ _ hj, hv]
    split <;> simp
  · rw [Bool.not_eq_true] at hv
    rw [hv]
    split <;> simp [*]

theorem ackStatus_lt_32 {st : Byte} (v : Byte) (h : st.toNat < 32) : (ackStatus st v).toNat < 32 := by
  unfold ackStatus
  split
  · exact putBit_lt_32 _ 1 _ h
  · exact h

theorem putBit_zero_lt_2 : ∀ (b : Bool) (v : Byte), v.toNat < 2 → (putBit v 0 b).toNat < 2 := by decide +kernel

theorem ctrlWrite_lt_2 (d v : Byte) (h : d.toNat < 2) : (ctrlWrite d v).toNat < 2 := putBit_zero_lt_2 _ d h

/-- KEYV is a bit of `STATUS`: equal `STATUS`, equal KEYV. (Say it so: comparing the two states as a whole unfolds every
other field.) -/
theorem keyv_of_status {s w : State} (h : w.status = s.status) : w.keyv = s.keyv := by rw [State.keyv, State.keyv, h]

theorem getLsbD_putBit_four (st : Byte) (b : Bool) : (putBit st 4 b).getLsbD 4 = b := by
  rw [getLsbD_putBit _ _ _ _ (by decide)]; rfl

theorem putBit_four_reserved (st : Byte) (b : Bool) : ∀ j, 5 ≤ j → j < 8 → (putBit st 4 b).getLsbD j = st.getLsbD j := by
  intro j h5 h8
  rw [getLsbD_putBit _ _ _ _ h8, if_neg (by omega)]

/-- What a read of `STATUS` shows of a running command (R66). -/
theorem statusRead_of_busy : ∀ st : Byte, st.toNat < 32 → st.getLsbD 0 = true → st.getLsbD 1 = false →
    st.getLsbD 2 = false → st.getLsbD 3 = false → statusRead st = if st.getLsbD 4 then 0x11 else 0x01 := by
  decide +kernel

theorem putBit_twice : ∀ (i : Fin 8) (b : Bool) (v : Byte), putBit (putBit v i b) i b = putBit v i b := by decide +kernel

theorem ackStatus_twice (st v : Byte) : ackStatus (ackStatus st v) v = ackStatus st v := by
  unfold ackStatus
  split
  · exact putBit_twice 1 false st
  · rfl

theorem ctrlWrite_twice (d v : Byte) : ctrlWrite (ctrlWrite d v) v = ctrlWrite d v := putBit_twice 0 _ d

/-- Below 32, the reserved bits of `STATUS` are 0. -/
theorem getLsbD_of_lt_32 {v : Byte} (h : v.toNat < 32) (j : Nat) (hj : 5 ≤ j) : v.getLsbD j = false := by
  rw [BitVec.getLsbD]
  exact Nat.testBit_lt_two_pow (h.trans_le (Nat.pow_le_pow_right (by decide) hj : 2 ^ 5 ≤ 2 ^ j))

end Sys2Proof.Machine
end

