-- ==== Sys2Proof/Laws/Bus.lean ====
section
/-! SUPPORT. The address map and the host's accesses (20_memory.md R63 to R66, R72). -/

namespace Sys2Proof.Machine

/-- The first address of an item. -/
def Item.base (it : Item) : Nat := ((addressMap.find? fun r => r.item == it).map MapRow.base).getD 0

/-- The size of an item in bytes. -/
def Item.size (it : Item) : Nat := ((addressMap.find? fun r => r.item == it).map MapRow.size).getD 0

/-- No two rows of the address map overlap. -/
theorem addressMap_disjoint :
    addressMap.Pairwise fun r q => r.base + r.size ≤ q.base := by decide

/-- An address that holds byte `i` of an item is the item's base plus `i`, and `i` is inside the item. -/
theorem locate_some : ∀ a : Addr, ∀ x, locate a = some x → a.toNat = x.1.base + x.2 ∧ x.2 < x.1.size := by
  have h : ∀ a : Addr, (locate a).all (fun x => a.toNat == x.1.base + x.2 && decide (x.2 < x.1.size)) = true := by
    decide +kernel
  intro a x hx
  have := h a
  rw [hx] at this
  simpa using this

/-- Byte `i` of an item stands at the item's base plus `i`. -/
theorem locate_base_add : ∀ (it : Item) (i : Nat), i < it.size → locate (BitVec.ofNat 9 (it.base + i)) = some (it, i) := by
  have h : ∀ it ∈ addressMap.map MapRow.item, (List.range it.size).all
      (fun i => locate (BitVec.ofNat 9 (it.base + i)) == some (it, i)) = true := by
    decide +kernel
  intro it i hi
  have hm : it ∈ addressMap.map MapRow.item := by cases it <;> decide
  have := List.all_eq_true.1 (h it hm) i (List.mem_range.2 hi)
  simpa using this

/-- Two addresses that hold the same byte of the same item are one address. -/
theorem locate_inj {a b : Addr} {x : Item × Nat} (ha : locate a = some x) (hb : locate b = some x) : a = b := by
  apply BitVec.eq_of_toNat_eq
  rw [(locate_some a x ha).1, (locate_some b x hb).1]

theorem cellAt_of_locate {s : State} {a : Addr} {it : Item} {i : Nat} (h : locate a = some (it, i)) :
    cellAt s a = itemByte s it i := by simp [cellAt, h]

theorem cellAt_of_unmapped {s : State} {a : Addr} (h : locate a = none) : cellAt s a = 0x00 := by simp [cellAt, h]

theorem busRead_idle {s : State} (h : s.busy = false) (a : Addr) : busRead s a = cellAt s a := by simp [busRead, h]

theorem busWrite_busy {s : State} (h : s.busy = true) (a : Addr) (v : Byte) : busWrite s a v = s := by
  simp [busWrite, h]

theorem busWrite_unmapped {s : State} {a : Addr} (h : locate a = none) (v : Byte) : busWrite s a v = s := by
  simp [busWrite, h]

theorem busWrite_idle {s : State} {a : Addr} {it : Item} {i : Nat} (hb : s.busy = false) (h : locate a = some (it, i))
    (v : Byte) : busWrite s a v = itemWrite s it i v := by simp [busWrite, hb, h]

/-- Everything a host write can do: nothing, or the write of an item while idle. -/
theorem busWrite_cases (s : State) (a : Addr) (v : Byte) :
    busWrite s a v = s ∨
    ∃ it i, s.busy = false ∧ locate a = some (it, i) ∧ busWrite s a v = itemWrite s it i v := by
  cases hb : s.busy with
  | true => exact .inl (busWrite_busy hb a v)
  | false =>
    cases h : locate a with
    | none => exact .inl (busWrite_unmapped h v)
    | some x => exact .inr ⟨x.1, x.2, rfl, rfl, busWrite_idle hb h v⟩

/-- A vector with one byte replaced shows that byte there and the old ones elsewhere. -/
theorem getD_setIfInBounds {n : Nat} (b : Vector Byte n) (i j : Nat) (v : Byte) (hi : i < n) :
    (b.setIfInBounds i v).getD j 0 = if j = i then v else b.getD j 0 := by
  simp only [vector_getD]
  by_cases h : j = i
  · subst h
    simp [hi]
  · simp [h, Ne.symm h]

/-- No host write changes the key store, the queue or `rdata` (10_state.md R42). -/
theorem itemWrite_key (s : State) (it : Item) (i : Nat) (v : Byte) : (itemWrite s it i v).key = s.key := by
  cases it <;> rfl

theorem itemWrite_klen (s : State) (it : Item) (i : Nat) (v : Byte) : (itemWrite s it i v).klen = s.klen := by
  cases it <;> rfl

theorem itemWrite_queue (s : State) (it : Item) (i : Nat) (v : Byte) : (itemWrite s it i v).queue = s.queue := by
  cases it <;> rfl

theorem itemWrite_rdata (s : State) (it : Item) (i : Nat) (v : Byte) : (itemWrite s it i v).rdata = s.rdata := by
  cases it <;> rfl

/-- No host write changes KEYV. -/
theorem itemWrite_keyv (s : State) (it : Item) (i : Nat) (v : Byte) : (itemWrite s it i v).keyv = s.keyv := by
  cases it with
  | cmd => exact State.start_keyv s v
  | status =>
    show (ackStatus s.status v).getLsbD 4 = s.status.getLsbD 4
    rw [getLsbD_ackStatus _ _ _ (by decide)]
    rfl
  | _ => rfl

theorem locate_cmd : locate 0x000 = some (.cmd, 0) := by decide
theorem locate_status : locate 0x001 = some (.status, 0) := by decide
theorem locate_ctrl : locate 0x003 = some (.ctrl, 0) := by decide

/-- `CMD` is at address 0 and nowhere else. -/
theorem eq_zero_of_locate_cmd {a : Addr} {i : Nat} (h : locate a = some (.cmd, i)) : a = 0x000 := by
  obtain ⟨h1, h2⟩ := locate_some a _ h
  have hi : i = 0 := Nat.lt_one_iff.1 h2
  apply BitVec.eq_of_toNat_eq
  rw [h1, hi]
  rfl

/-- R63's list is the complement of the address map. -/
theorem unmapped_iff : ∀ a : Addr, Unmapped a ↔ locate a = none := by decide +kernel

theorem plainWritable_locate (a : Addr) (ha : PlainWritable a) :
    ∃ it i, locate a = some (it, i) ∧ it ∈ [Item.dlen, .tlen, .clen, .time, .ctr, .cand, .mac, .dbuf, .tbuf] := by
  have h : ∀ a : Addr, PlainWritable a → (match locate a with
    | some (it, _) => decide (it ∈ [Item.dlen, .tlen, .clen, .time, .ctr, .cand, .mac, .dbuf, .tbuf])
    | none => false) = true := by decide +kernel
  have := h a ha
  cases hl : locate a with
  | none => rw [hl] at this; cases this
  | some x => rw [hl] at this; exact ⟨x.1, x.2, rfl, by simpa using this⟩

theorem readOnly_locate (a : Addr) (ha : ReadOnly a) :
    ∃ it i, locate a = some (it, i) ∧ it ∈ [Item.errcode, .klen, .bin, .coden, .code0, .code1, .code2, .offs] := by
  have h : ∀ a : Addr, ReadOnly a → (match locate a with
    | some (it, _) => decide (it ∈ [Item.errcode, .klen, .bin, .coden, .code0, .code1, .code2, .offs])
    | none => false) = true := by decide +kernel
  have := h a ha
  cases hl : locate a with
  | none => rw [hl] at this; cases this
  | some x => rw [hl] at this; exact ⟨x.1, x.2, rfl, by simpa using this⟩

/-- Every byte of every item after a write to a plain item: the byte written there, every other byte as before. -/
theorem itemByte_itemWrite (s : State) (it it' : Item) (i j : Nat) (v : Byte)
    (hp : it ∈ [Item.dlen, .tlen, .clen, .time, .ctr, .cand, .mac, .dbuf, .tbuf])
    (hi : i < it.size) (hj : j < it'.size) :
    itemByte (itemWrite s it i v) it' j = if it' = it ∧ j = i then v else itemByte s it' j := by
  by_cases h : it' = it
  · subst h
    simp only [true_and]
    cases it' <;> simp at hp
    case dlen => have : i = 0 := Nat.lt_one_iff.1 hi; have : j = 0 := Nat.lt_one_iff.1 hj; simp [*]; rfl
    case tlen => have : i = 0 := Nat.lt_one_iff.1 hi; have : j = 0 := Nat.lt_one_iff.1 hj; simp [*]; rfl
    case clen => have : i = 0 := Nat.lt_one_iff.1 hi; have : j = 0 := Nat.lt_one_iff.1 hj; simp [*]; rfl
    case time => exact regByte_setRegByte _ _ _ _ hi hj
    case ctr => exact regByte_setRegByte _ _ _ _ hi hj
    all_goals exact getD_setIfInBounds _ _ _ _ hi
  · rw [if_neg (fun hh => h hh.1)]
    cases it <;> simp at hp <;> cases it' <;> first | rfl | exact absurd rfl h

/-- An idle read of byte `i` of an item, at the item's base plus `i`. -/
theorem busRead_item {s : State} (h : s.busy = false) (it : Item) (i n : Nat) (hn : n = it.base + i) (hi : i < it.size) :
    busRead s (BitVec.ofNat 9 n) = itemByte s it i := by
  subst hn
  rw [busRead_idle h, cellAt_of_locate (locate_base_add it i hi)]

/-- A cycle without `rst` while a command runs changes nothing but `rdata` (R66). -/
theorem busCycle_of_busy {s : State} (hb : s.busy = true) (p : Pins) (hr : p.rst = false) :
    busCycle s p = { s with rdata := rdataPin s p } := by
  have : cycleCore s p = s := by
    simp [cycleCore, hr, busWrite_busy hb]
  simp [busCycle, this]

end Sys2Proof.Machine
end

