-- ==== Sys2Proof/Laws/Ops.lean ====
section
/-! SUPPORT. What the shared operations can do: one inversion lemma each (30_encoding.md R93; 60_exceptions.md R226), and
`exec` as the completion of one function of the command. -/

namespace Sys2Proof.Machine

/-- `Exec` of every command, in one function (30_encoding.md R93). -/
def resultOf (i : Instr) (s : State) : CmdResult :=
  match i with
  | .b32enc => cmdB32enc s
  | .b32encp => cmdB32encp s
  | .b32dec => cmdB32dec s
  | .keyld => cmdKeyld s
  | .keyclr => cmdKeyclr s
  | .sha1 => cmdSha1 s
  | .hmac => cmdHmac s
  | .trunc => cmdTrunc s
  | .hotp => cmdHotp s
  | .tdiv => cmdTdiv s
  | .codes => cmdCodes s
  | .valid => cmdValid s

/-- A command's step always answers the completion of its result. -/
theorem exec_eq_complete (i : Instr) (s : State) : exec i s = .next (s.complete (resultOf i s)) := by
  cases i <;> rfl

theorem exec_eq_next {i : Instr} {s t : State} (h : exec i s = .next t) : t = s.complete (resultOf i s) := by
  rw [exec_eq_complete] at h
  exact (Host.Outcome.next.inj h).symm

theorem execIllegal_eq (s : State) : execIllegal s = .next (s.errorEntry .illcmd) := rfl

@[simp] theorem complete_ok (s w : State) (hit : Bool) : s.complete (.ok w hit) = w.succeed hit := rfl

@[simp] theorem complete_error (s : State) (e : ErrorCode) : s.complete (.error e) = s.errorEntry e := rfl

/-- Where `Exec` succeeds, the command's step is the completion without error of the state that carries the writes. -/
theorem exec_of_ok {i : Instr} {s w : State} {hit : Bool} (h : resultOf i s = .ok w hit) :
    exec i s = .next (w.succeed hit) := by rw [exec_eq_complete, h, complete_ok]

/-- Where `Exec` raises an error, the command's step is the error entry. -/
theorem exec_of_error {i : Instr} {s : State} {e : ErrorCode} (h : resultOf i s = .error e) :
    exec i s = .next (s.errorEntry e) := by rw [exec_eq_complete, h, complete_error]

/-- The key check passes its continuation on, or answers NOKEY. -/
theorem withKey_cases (s : State) (k : CmdResult) :
    (s.keyv = true ∧ withKey s k = k) ∨ (s.keyv = false ∧ withKey s k = .error .nokey) := by
  unfold withKey
  cases h : s.keyv <;> simp

/-- The length check passes its continuation on, or answers LENGTH. -/
theorem withData_cases (s : State) (k : CmdResult) :
    (s.dlen.toNat ≤ 64 ∧ withData s k = k) ∨ (64 < s.dlen.toNat ∧ withData s k = .error .length) := by
  unfold withData Config.dbufMax
  split
  · exact .inr ⟨‹_›, rfl⟩
  · exact .inl ⟨by omega, rfl⟩

theorem withKey_of_keyv {s : State} (h : s.keyv = true) (k : CmdResult) : withKey s k = k := by simp [withKey, h]

theorem withKey_of_no_keyv {s : State} (h : s.keyv = false) (k : CmdResult) : withKey s k = .error .nokey := by
  simp [withKey, h]

theorem withData_of_le {s : State} (h : s.dlen.toNat ≤ 64) (k : CmdResult) : withData s k = k :=
  if_neg (Nat.not_lt.2 h)

theorem withData_of_lt {s : State} (h : 64 < s.dlen.toNat) (k : CmdResult) : withData s k = .error .length := if_pos h

theorem errorCode_bounds (e : ErrorCode) : e.code ≠ 0 ∧ e.code.toNat ≤ 5 := by cases e <;> decide

end Sys2Proof.Machine
end

