-- ==== Sys2Proof/Laws/Commands.lean ====
section
/-! SUPPORT. One spec lemma per command: the outcome of `Exec` where the checks pass, and the error where one fails; and
what no command can change. -/

namespace Sys2Proof.Machine

section Outcomes
variable {s : State}

theorem cmdB32enc_ok (h : s.dlen.toNat ≤ 64) : cmdB32enc s = putText s (b32enc s.data) := withData_of_le h _
theorem cmdB32enc_length (h : 64 < s.dlen.toNat) : cmdB32enc s = .error .length := withData_of_lt h _
theorem cmdB32encp_ok (h : s.dlen.toNat ≤ 64) : cmdB32encp s = putText s (b32encp s.data) := withData_of_le h _
theorem cmdB32encp_length (h : 64 < s.dlen.toNat) : cmdB32encp s = .error .length := withData_of_lt h _

theorem cmdB32dec_tlen (h : 104 < s.tlen.toNat) : cmdB32dec s = .error .length := if_pos h
theorem cmdB32dec_format (h : s.tlen.toNat ≤ 104) (hd : b32dec s.text = none) : cmdB32dec s = .error .format := by
  rw [cmdB32dec, if_neg (show ¬ Config.tbufMax < s.tlen.toNat from Nat.not_lt.2 h), hd]
theorem cmdB32dec_length {b : List Byte} (h : s.tlen.toNat ≤ 104) (hd : b32dec s.text = some b) (hb : 64 < b.length) :
    cmdB32dec s = .error .length := by
  rw [cmdB32dec, if_neg (show ¬ Config.tbufMax < s.tlen.toNat from Nat.not_lt.2 h), hd]
  exact if_pos hb
theorem cmdB32dec_ok {b : List Byte} (h : s.tlen.toNat ≤ 104) (hd : b32dec s.text = some b) (hb : b.length ≤ 64) :
    cmdB32dec s = .ok { s with dbuf := fill 64 b, dlen := BitVec.ofNat 8 b.length } false := by
  rw [cmdB32dec, if_neg (show ¬ Config.tbufMax < s.tlen.toNat from Nat.not_lt.2 h), hd]
  exact if_neg (Nat.not_lt.2 hb)

theorem cmdKeyld_ok (h : s.dlen.toNat ≤ 64) : cmdKeyld s =
    .ok { s with key := fill 64 s.data, klen := s.dlen, status := putBit s.status 4 true } false := withData_of_le h _
theorem cmdKeyld_length (h : 64 < s.dlen.toNat) : cmdKeyld s = .error .length := withData_of_lt h _

theorem cmdSha1_ok (h : s.dlen.toNat ≤ 64) : cmdSha1 s = .ok { s with mac := fill 20 (sha1 s.data) } false :=
  withData_of_le h _
theorem cmdSha1_length (h : 64 < s.dlen.toNat) : cmdSha1 s = .error .length := withData_of_lt h _

theorem cmdHmac_nokey (h : s.keyv = false) : cmdHmac s = .error .nokey := withKey_of_no_keyv h _
theorem cmdHmac_length (hk : s.keyv = true) (h : 64 < s.dlen.toNat) : cmdHmac s = .error .length := by
  rw [cmdHmac, withKey_of_keyv hk, withData_of_lt h]
theorem cmdHmac_ok (hk : s.keyv = true) (h : s.dlen.toNat ≤ 64) :
    cmdHmac s = .ok { s with mac := fill 20 (hmacSha1 s.secret s.data) } false := by
  rw [cmdHmac, withKey_of_keyv hk, withData_of_le h]

theorem cmdHotp_nokey (h : s.keyv = false) : cmdHotp s = .error .nokey := withKey_of_no_keyv h _
theorem cmdHotp_ok (hk : s.keyv = true) : cmdHotp s =
    .ok ({ s with mac := counterMac s.secret s.ctr }.putTruncation (counterMac s.secret s.ctr)) false :=
  withKey_of_keyv hk _

theorem cmdCodes_nokey (h : s.keyv = false) : cmdCodes s = .error .nokey := withKey_of_no_keyv h _
theorem cmdCodes_ok (hk : s.keyv = true) : cmdCodes s = .ok
    ({ s with
        ctr := timeCounter s.time
        code0 := hotp s.secret (timeCounter s.time - 1)
        code2 := hotp s.secret (timeCounter s.time + 1)
        mac := counterMac s.secret (timeCounter s.time) }.putTruncation (counterMac s.secret (timeCounter s.time)))
    false :=
  withKey_of_keyv hk _

theorem cmdValid_nokey (h : s.keyv = false) : cmdValid s = .error .nokey := withKey_of_no_keyv h _
theorem cmdValid_malformed (hk : s.keyv = true) (h : s.wellFormedCandidate = false) :
    cmdValid s = .error .malformed := by
  rw [cmdValid, withKey_of_keyv hk, h]
  rfl
theorem cmdValid_ok (hk : s.keyv = true) (h : s.wellFormedCandidate = true) :
    cmdValid s = .ok s s.candidateMatches := by
  rw [cmdValid, withKey_of_keyv hk, h]
  rfl

end Outcomes

/-- Every outcome of every command: an error, or the writes of the command's own row of R92 with KEYV as KEYLD and KEYCLR
leave it, and no match but VALID's. -/
theorem resultOf_cases (i : Instr) (s : State) :
    (∃ e, resultOf i s = .error e) ∨
    (∃ w hit, resultOf i s = .ok w hit ∧ ChangesOnlyResults i s w ∧ w.errcode = s.errcode ∧
      (i ≠ .valid → hit = false) ∧
      w.status = match i with
        | .keyld => putBit s.status 4 true
        | .keyclr => putBit s.status 4 false
        | _ => s.status) := by
  have data (k : CmdResult) (P : Prop) (hP : ∀ r, withData s k = r → r = k → P) (hE : withData s k = .error .length → P) :
      P := (withData_cases s k).elim (fun h => hP _ rfl h.2) fun h => hE h.2
  have key (k : CmdResult) (P : Prop) (hP : ∀ r, withKey s k = r → r = k → P) (hE : withKey s k = .error .nokey → P) :
      P := (withKey_cases s k).elim (fun h => hP _ rfl h.2) fun h => hE h.2
  cases i with
  | keyclr => exact .inr ⟨_, _, rfl, rfl, rfl, fun _ => rfl, rfl⟩
  | trunc => exact .inr ⟨_, _, rfl, rfl, rfl, fun _ => rfl, rfl⟩
  | tdiv => exact .inr ⟨_, _, rfl, rfl, rfl, fun _ => rfl, rfl⟩
  | b32enc =>
    exact data _ _ (fun _ h hk => .inr ⟨_, _, h.trans hk, rfl, rfl, fun _ => rfl, rfl⟩) fun h => .inl ⟨_, h⟩
  | b32encp =>
    exact data _ _ (fun _ h hk => .inr ⟨_, _, h.trans hk, rfl, rfl, fun _ => rfl, rfl⟩) fun h => .inl ⟨_, h⟩
  | keyld =>
    exact data _ _ (fun _ h hk => .inr ⟨_, _, h.trans hk, rfl, rfl, fun _ => rfl, rfl⟩) fun h => .inl ⟨_, h⟩
  | sha1 =>
    exact data _ _ (fun _ h hk => .inr ⟨_, _, h.trans hk, rfl, rfl, fun _ => rfl, rfl⟩) fun h => .inl ⟨_, h⟩
  | hotp =>
    exact key _ _ (fun _ h hk => .inr ⟨_, _, h.trans hk, rfl, rfl, fun _ => rfl, rfl⟩) fun h => .inl ⟨_, h⟩
  | codes =>
    exact key _ _ (fun _ h hk => .inr ⟨_, _, h.trans hk, rfl, rfl, fun _ => rfl, rfl⟩) fun h => .inl ⟨_, h⟩
  | hmac =>
    refine key _ _ (fun _ h hk => ?_) fun h => .inl ⟨_, h⟩
    exact data _ _ (fun _ h' hk' => .inr ⟨_, _, (h.trans hk).trans (h'.trans hk'), rfl, rfl, fun _ => rfl, rfl⟩)
      fun h' => .inl ⟨_, (h.trans hk).trans h'⟩
  | valid =>
    refine key _ _ (fun _ h hk => ?_) fun h => .inl ⟨_, h⟩
    cases hw : s.wellFormedCandidate
    · exact .inl ⟨_, (h.trans hk).trans (by rw [hw]; rfl)⟩
    · exact .inr ⟨s, s.candidateMatches, (h.trans hk).trans (by rw [hw]; rfl), rfl, rfl, fun h => absurd rfl h, rfl⟩
  | b32dec =>
    rcases Nat.lt_or_ge 104 s.tlen.toNat with ht | ht
    · exact .inl ⟨_, cmdB32dec_tlen ht⟩
    · cases hd : b32dec s.text with
      | none => exact .inl ⟨_, cmdB32dec_format ht hd⟩
      | some b =>
        rcases Nat.lt_or_ge 64 b.length with hb | hb
        · exact .inl ⟨_, cmdB32dec_length ht hd hb⟩
        · exact .inr ⟨_, _, cmdB32dec_ok ht hd hb, rfl, rfl, fun _ => rfl, rfl⟩

/-- A completion changes the status and the items of the command's own row of R92, whatever its outcome. -/
theorem complete_changesOnlyResults (i : Instr) (s : State) : ChangesOnlyResults i s (s.complete (resultOf i s)) := by
  rcases resultOf_cases i s with ⟨e, he⟩ | ⟨w, hit, hw, hf, -, -, -⟩
  · rw [he]; cases i <;> rfl
  · rw [hw]
    cases i <;> (simp only [ChangesOnlyResults] at hf ⊢; exact congrArg (fun x => State.succeed x hit) hf)

/-- The same for a successful outcome. -/
theorem succeed_changesOnlyResults {i : Instr} {s w : State} {hit : Bool} (h : resultOf i s = .ok w hit) :
    ChangesOnlyResults i s (w.succeed hit) := by
  have := complete_changesOnlyResults i s
  rwa [h, complete_ok] at this

/-- What no command changes: `OPC`, `CTRL`, the operand registers of the host alone, the queue and `rdata`. -/
theorem complete_frame (i : Instr) (s : State) :
    (s.complete (resultOf i s)).opc = s.opc ∧ (s.complete (resultOf i s)).ctrl = s.ctrl ∧
    (s.complete (resultOf i s)).clen = s.clen ∧ (s.complete (resultOf i s)).time = s.time ∧
    (s.complete (resultOf i s)).cand = s.cand ∧ (s.complete (resultOf i s)).queue = s.queue ∧
    (s.complete (resultOf i s)).rdata = s.rdata := by
  rcases resultOf_cases i s with ⟨e, he⟩ | ⟨w, hit, hw, hf, -, -, -⟩
  · rw [he]; exact ⟨rfl, rfl, rfl, rfl, rfl, rfl, rfl⟩
  · rw [hw]
    cases i <;> (simp only [ChangesOnlyResults] at hf; rw [hf]; exact ⟨rfl, rfl, rfl, rfl, rfl, rfl, rfl⟩)

/-- The status of a completion without error, flag by flag. -/
theorem completed_ok (s w : State) (hit : Bool) (hres : ∀ j, 5 ≤ j → j < 8 → w.status.getLsbD j = s.status.getLsbD j) :
    Completed s (w.succeed hit) hit false 0 w.keyv where
  busy := State.succeed_busy _ _
  done := State.succeed_done _ _
  hit := State.succeed_matched _ _
  err := State.succeed_err _ _
  errcode := rfl
  keyv := State.succeed_keyv _ _
  reserved j h5 h8 := by
    show (completionStatus hit false w.status).getLsbD j = _
    rw [getLsbD_completionStatus _ _ _ _ h8, if_neg (by omega), if_neg (by omega), if_neg (by omega), if_neg (by omega),
      hres j h5 h8]

/-- The same where the writes leave `STATUS` alone. -/
theorem completed_of_status {s w : State} (h : w.status = s.status) (hit : Bool) :
    Completed s (w.succeed hit) hit false 0 s.keyv := by
  rw [← keyv_of_status h]
  exact completed_ok s w hit fun j _ _ => by rw [h]

/-- The status of an error entry, flag by flag. -/
theorem completed_error (s : State) (e : ErrorCode) : Completed s (s.errorEntry e) false true e.code s.keyv where
  busy := State.errorEntry_busy _ _
  done := State.errorEntry_done _ _
  hit := State.errorEntry_matched _ _
  err := State.errorEntry_err _ _
  errcode := rfl
  keyv := State.errorEntry_keyv _ _
  reserved j h5 h8 := by
    show (completionStatus false true s.status).getLsbD j = _
    rw [getLsbD_completionStatus _ _ _ _ h8, if_neg (by omega), if_neg (by omega), if_neg (by omega), if_neg (by omega)]

theorem data_length {s : State} (h : s.dlen.toNat ≤ 64) : s.data.length = s.dlen.toNat := by
  simp [State.data]; omega

/-- The errors a command can raise (30_encoding.md R92, 60_exceptions.md R225). -/
theorem error_code_of_command (i : Instr) (s : State) (e : ErrorCode) (h : resultOf i s = .error e) :
    match i with
    | .b32enc => e = .length
    | .b32encp => e = .length
    | .b32dec => e = .length ∨ e = .format
    | .keyld => e = .length
    | .keyclr => False
    | .sha1 => e = .length
    | .hmac => e = .nokey ∨ e = .length
    | .trunc => False
    | .hotp => e = .nokey
    | .tdiv => False
    | .codes => e = .nokey
    | .valid => e = .nokey ∨ e = .malformed := by
  cases i <;>
    simp only [resultOf, cmdB32enc, cmdB32encp, cmdB32dec, cmdKeyld, cmdKeyclr, cmdSha1, cmdHmac, cmdTrunc, cmdHotp,
      cmdTdiv, cmdCodes, cmdValid, withData, withKey, putText] at h ⊢ <;>
    (repeat' split at h) <;> cases h <;> simp

/-- Completion does not touch the model's own fields, and does not depend on them. -/
theorem complete_own (i : Instr) (s : State) (q : List Event) (r : Byte) :
    ({ s with queue := q, rdata := r } : State).complete (resultOf i { s with queue := q, rdata := r }) =
      { s.complete (resultOf i s) with queue := q, rdata := r } := by
  cases i with
  | keyclr => rfl
  | trunc => rfl
  | tdiv => rfl
  | b32dec =>
    simp only [resultOf, cmdB32dec, State.text]
    split
    · rfl
    · split
      · rfl
      · split <;> rfl
  | valid =>
    simp only [resultOf, cmdValid, withKey]
    show State.complete _ (if s.keyv then (if s.wellFormedCandidate then _ else _) else _) =
      { State.complete s (if s.keyv then (if s.wellFormedCandidate then _ else _) else _) with queue := q, rdata := r }
    split
    · split <;> rfl
    · rfl
  | hmac =>
    simp only [resultOf, cmdHmac, withKey, withData]
    show State.complete _ (if s.keyv then (if _ < s.dlen.toNat then _ else _) else _) =
      { State.complete s (if s.keyv then (if _ < s.dlen.toNat then _ else _) else _) with queue := q, rdata := r }
    split
    · split <;> rfl
    · rfl
  | hotp =>
    simp only [resultOf, cmdHotp, withKey]
    show State.complete _ (if s.keyv then _ else _) =
      { State.complete s (if s.keyv then _ else _) with queue := q, rdata := r }
    split <;> rfl
  | codes =>
    simp only [resultOf, cmdCodes, withKey]
    show State.complete _ (if s.keyv then _ else _) =
      { State.complete s (if s.keyv then _ else _) with queue := q, rdata := r }
    split <;> rfl
  | _ =>
    simp only [resultOf, cmdB32enc, cmdB32encp, cmdKeyld, cmdSha1, withData, putText]
    split <;> rfl

end Sys2Proof.Machine
end

