-- ==== Sys2Proof/Laws/Sha1.lean ====
section
/-! SUPPORT. Laws of SHA-1 and HMAC-SHA1 (42_sha1_hmac.md R152 to R160): lengths, the schedule, rounds and blocks as
iterations. -/

namespace Sys2Proof.Machine

theorem Five.bytes_length (h : Five) : h.bytes.length = 20 := by simp [Five.bytes]

@[simp] theorem sha1_length (m : List Byte) : (sha1 m).length = 20 := by rw [sha1, Five.bytes_length]

@[simp] theorem hmacSha1_length (k m : List Byte) : (hmacSha1 k m).length = 20 := by rw [hmacSha1, sha1_length]

@[simp] theorem blockWords_length (b : List Byte) : (blockWords b).length = 16 := by simp [blockWords]

@[simp] theorem sha1Blocks_length (n : Nat) (m : List Byte) : (sha1Blocks n m).length = n := by simp [sha1Blocks]

/-- Block `i` of a padded message (R152). -/
theorem sha1Blocks_getD (n : Nat) (m : List Byte) (i : Nat) (h : i < n) :
    (sha1Blocks n m).getD i [] = (m.drop (64 * i)).take 64 := by
  rw [List.getD_eq_getElem _ _ (by simpa using h)]
  simp [sha1Blocks]

/-- Word `j` of a block is four of its bytes, big-endian (R152). -/
theorem blockWords_getD_toNat (b : List Byte) (j : Nat) (h : j < 16) :
    ((blockWords b).getD j 0).toNat = be ((b.drop (4 * j)).take 4) := by
  rw [List.getD_eq_getElem _ _ (by simpa using h)]
  simp only [blockWords, List.getElem_map, List.getElem_range, BitVec.toNat_ofNat]
  have hl := be_lt ((b.drop (4 * j)).take 4)
  have h4 : 256 ^ ((b.drop (4 * j)).take 4).length ≤ 256 ^ 4 :=
    Nat.pow_le_pow_right (by decide) (List.length_take_le _ _)
  exact Nat.mod_eq_of_lt (by omega)

/-! ### The schedule -/

theorem extendW_length (n : Nat) (l : List Word32) : (extendW n l).length = n + l.length := by
  induction n generalizing l with
  | zero => simp [extendW]
  | succ n ih => rw [extendW, ih, List.length_cons]; omega

/-- The words one starts from are the older part of the extended list. -/
theorem extendW_getD_old (n : Nat) (l : List Word32) (i : Nat) : (extendW n l).getD (n + i) 0 = l.getD i 0 := by
  induction n generalizing l i with
  | zero => simp [extendW]
  | succ n ih =>
    rw [extendW, show n + 1 + i = n + (i + 1) by omega, ih, List.getD_cons_succ]

/-- Every added word comes from four older ones (R154). -/
theorem extendW_getD_new (n : Nat) (l : List Word32) (i : Nat) (h : i < n) :
    (extendW n l).getD i 0 =
      ((extendW n l).getD (i + 3) 0 ^^^ (extendW n l).getD (i + 8) 0 ^^^ (extendW n l).getD (i + 14) 0 ^^^
        (extendW n l).getD (i + 16) 0).rotateLeft 1 := by
  induction n generalizing l i with
  | zero => omega
  | succ n ih =>
    rw [extendW]
    by_cases hi : i < n
    · exact ih _ i hi
    · obtain rfl : i = n := by omega
      have e0 := extendW_getD_old i (nextW l :: l) 0
      rw [Nat.add_zero] at e0
      rw [e0, extendW_getD_old, extendW_getD_old, extendW_getD_old, extendW_getD_old]
      rfl

theorem reverse_getD (l : List Word32) (i : Nat) (h : i < l.length) :
    l.reverse.getD i 0 = l.getD (l.length - 1 - i) 0 := by
  rw [List.getD_eq_getElem _ _ (by simpa using h), List.getElem_reverse, List.getD_eq_getElem _ _ (by omega)]

/-- Schedule word `t`, counted from the newest. -/
theorem schedule_getD (b : List Byte) (t : Nat) (h : t < 80) :
    (schedule b).getD t 0 = (extendW 64 (blockWords b).reverse).getD (79 - t) 0 := by
  have hl : (extendW 64 (blockWords b).reverse).length = 80 := by rw [extendW_length]; simp
  rw [schedule, reverse_getD _ _ (by omega), hl]

/-! ### Rounds and blocks -/

/-- Any sequence of working words that follows the rounds ends where the rounds end. -/
theorem sha1Rounds_eq (ws : List Word32) (r : Nat → Five) (t0 : Nat)
    (h : ∀ t, t < ws.length → r (t0 + t + 1) = sha1Round (t0 + t) (ws.getD t 0) (r (t0 + t))) :
    sha1Rounds t0 ws (r t0) = r (t0 + ws.length) := by
  induction ws generalizing t0 with
  | nil => rfl
  | cons w ws ih =>
    have h0 := h 0 (by simp)
    rw [sha1Rounds]
    simp only [Nat.add_zero, List.getD_cons_zero] at h0
    rw [← h0, ih (t0 + 1)]
    · rw [List.length_cons]; congr 1; omega
    · intro t ht
      have := h (t + 1) (by rw [List.length_cons]; omega)
      simp only [List.getD_cons_succ] at this
      rw [show t0 + 1 + t = t0 + (t + 1) by omega]
      exact this

/-- Any sequence of values that follows a fold ends where the fold ends. -/
theorem foldl_eq_iterate {α β : Type} (f : β → α → β) (l : List α) (g : Nat → β)
    (h : ∀ i (hi : i < l.length), g (i + 1) = f (g i) l[i]) : l.foldl f (g 0) = g l.length := by
  induction l using List.reverseRecOn with
  | nil => rfl
  | append_singleton l a ih =>
    rw [List.foldl_append, ih]
    · have := h l.length (by simp)
      simp at this
      simp [this]
    · intro i hi
      have := h i (by simp; omega)
      rw [this, List.getElem_append_left hi]

end Sys2Proof.Machine
end

