-- ==== Sys2Proof/Laws/Hotp.lean ====
section
/-! SUPPORT. Laws of the HOTP derivation (43_hotp.md R180 to R187) and of the time window (44_totp.md R200 to R209): the
results as numbers, the candidate's checks, and what HOTP, CODES and VALID answer with a key. -/

namespace Sys2Proof.Machine

/-! ### Truncation and rendering -/

theorem digits6_getElem_toNat (n j : Nat) (hj : j < 6) : (digits6 n)[j].toNat = 0x30 + n / 10 ^ (5 - j) % 10 := by
  simp only [digits6, Vector.getElem_ofFn, BitVec.toNat_ofNat]
  have := Nat.mod_lt (n / 10 ^ (5 - j)) (show 0 < 10 by decide)
  omega

/-- Every character of a rendered code is a digit (R184). -/
theorem truncate_digit (m : Vector Byte 20) (j : Fin 6) :
    0x30 ≤ (truncate m).digits[j].toNat ∧ (truncate m).digits[j].toNat ≤ 0x39 := by
  have := digits6_getElem_toNat (reduce (binaryCode m)) j.val j.isLt
  show 0x30 ≤ ((digits6 (reduce (binaryCode m)))[j.val]).toNat ∧ ((digits6 (reduce (binaryCode m)))[j.val]).toNat ≤ 0x39
  rw [this]
  have := Nat.mod_lt (reduce (binaryCode m) / 10 ^ (5 - j.val)) (show 0 < 10 by decide)
  omega

theorem coden_toNat (m : Vector Byte 20) :
    (BitVec.ofNat 32 (truncate m).code).toNat = (truncate m).bin.toNat % 1000000 := by
  show (reduce (binaryCode m)) % 2 ^ 32 = _
  have : reduce (binaryCode m) < 1000000 := Nat.mod_lt _ (by decide)
  rw [Nat.mod_eq_of_lt (by omega)]
  rfl

theorem truncOffset_toNat (m : Vector Byte 20) : (truncOffset m).toNat = m[19].toNat % 16 := by
  unfold truncOffset
  rw [BitVec.toNat_and]
  exact Nat.and_two_pow_sub_one_eq_mod _ 4

/-- The truncated value is the low 31 bits of the four bytes at the offset (R181). -/
theorem binaryCode_toNat (m : Vector Byte 20) :
    (binaryCode m).toNat = be ((m.toList.drop (truncOffset m).toNat).take 4) % 2 ^ 31 := by
  have ho : (truncOffset m).toNat < 16 := by rw [truncOffset_toNat]; exact Nat.mod_lt _ (by decide)
  have hl : (m.toList.drop (truncOffset m).toNat).take 4 =
      [m.getD (truncOffset m).toNat 0, m.getD ((truncOffset m).toNat + 1) 0, m.getD ((truncOffset m).toNat + 2) 0,
        m.getD ((truncOffset m).toNat + 3) 0] := by
    rw [vector_getD_lt _ _ _ (by omega), vector_getD_lt _ _ _ (by omega), vector_getD_lt _ _ _ (by omega),
      vector_getD_lt _ _ _ (by omega)]
    apply List.ext_getElem
    · simp; omega
    · intro i h1 h2
      simp at h2
      interval_cases i <;> simp
  rw [hl]
  unfold binaryCode
  simp only
  generalize hB : be [m.getD (truncOffset m).toNat 0, m.getD ((truncOffset m).toNat + 1) 0,
    m.getD ((truncOffset m).toNat + 2) 0, m.getD ((truncOffset m).toNat + 3) 0] = B
  have : B < 256 ^ 4 := by rw [← hB]; exact be_lt _
  rw [BitVec.toNat_and, BitVec.toNat_ofNat, Nat.mod_eq_of_lt (by omega)]
  exact Nat.and_two_pow_sub_one_eq_mod _ 31

/-! ### Time -/

theorem timeCounter_toNat (t : Word64) : (timeCounter t).toNat = t.toNat / 30 := by
  unfold timeCounter Config.step
  rw [BitVec.toNat_ofNat, Nat.mod_eq_of_lt]
  have := t.isLt; omega

/-! ### The candidate -/

theorem candidate_eq (s : State) :
    s.candidate = [s.cand[0], s.cand[1], s.cand[2], s.cand[3], s.cand[4], s.cand[5]] := by
  apply List.ext_getElem
  · simp [State.candidate]
  · intro i h1 h2
    simp at h2
    interval_cases i <;> simp [State.candidate]

theorem code_toList (r : Vector Byte 6) : r.toList = [r[0], r[1], r[2], r[3], r[4], r[5]] := by
  apply List.ext_getElem
  · simp
  · intro i h1 h2
    simp at h2
    interval_cases i <;> simp

theorem wellFormedCandidate_iff (s : State) : s.wellFormedCandidate = true ↔
    s.clen = 6 ∧ ∀ j : Fin 6, 0x30 ≤ (s.cand.getD j 0).toNat ∧ (s.cand.getD j 0).toNat ≤ 0x39 := by
  unfold State.wellFormedCandidate
  rw [candidate_eq]
  simp [isDigit, Fin.forall_fin_succ, vector_getD]

theorem eq6_iff (s : State) (r : Vector Byte 6) : eq6 s.candidate r = true ↔ ∀ j : Fin 6, s.cand.getD j 0 = r[j] := by
  unfold eq6
  rw [candidate_eq, code_toList]
  simp [Fin.forall_fin_succ, vector_getD]

theorem candidateMatches_iff (s : State) : s.candidateMatches = true ↔
    eq6 s.candidate (hotp s.secret (timeCounter s.time - 1)) = true ∨
    eq6 s.candidate (hotp s.secret (timeCounter s.time)) = true ∨
    eq6 s.candidate (hotp s.secret (timeCounter s.time + 1)) = true := by
  simp [State.candidateMatches, windowCounters, or_assoc]

/-! ### The commands with a key -/

theorem exec_hotp_of_keyv {s : State} (hk : s.keyv = true) : exec .hotp s =
    .next (({ s with mac := counterMac s.secret s.ctr }.putTruncation (counterMac s.secret s.ctr) : State).succeed false) :=
  exec_of_ok (i := .hotp) (cmdHotp_ok hk)

theorem exec_codes_of_keyv {s : State} (hk : s.keyv = true) : exec .codes s =
    .next (({ s with
        ctr := timeCounter s.time
        code0 := hotp s.secret (timeCounter s.time - 1)
        code2 := hotp s.secret (timeCounter s.time + 1)
        mac := counterMac s.secret (timeCounter s.time) }.putTruncation
          (counterMac s.secret (timeCounter s.time)) : State).succeed false) :=
  exec_of_ok (i := .codes) (cmdCodes_ok hk)

theorem exec_valid_of_keyv {s : State} (hk : s.keyv = true) (hw : s.wellFormedCandidate = true) :
    exec .valid s = .next (s.succeed s.candidateMatches) :=
  exec_of_ok (i := .valid) (cmdValid_ok hk hw)

end Sys2Proof.Machine
end

