-- ==== Sys2Proof/Laws/PerInstr.lean ====
section
/-! SUPPORT. Per-instruction families: statements about a command as syntax, one lemma per constructor. -/

namespace Sys2Proof.Laws.CommandByte

/-- A command is well formed, its byte is a legal code (30_encoding.md R94), and the table's word for it decodes to it. -/
def Statement (i : Instr) : Prop :=
  i.wellFormed = true ∧ legalCode (encode i) = true ∧ decodeTableWord 8 (encode i).toNat = some i

theorem b32enc : Statement .b32enc := by unfold Statement; decide
theorem b32encp : Statement .b32encp := by unfold Statement; decide
theorem b32dec : Statement .b32dec := by unfold Statement; decide
theorem keyld : Statement .keyld := by unfold Statement; decide
theorem keyclr : Statement .keyclr := by unfold Statement; decide
theorem sha1 : Statement .sha1 := by unfold Statement; decide
theorem hmac : Statement .hmac := by unfold Statement; decide
theorem trunc : Statement .trunc := by unfold Statement; decide
theorem hotp : Statement .hotp := by unfold Statement; decide
theorem tdiv : Statement .tdiv := by unfold Statement; decide
theorem codes : Statement .codes := by unfold Statement; decide
theorem valid : Statement .valid := by unfold Statement; decide

end Sys2Proof.Laws.CommandByte
end

