-- ==== Sys2Proof/Laws/Step.lean ====
section
/-! SUPPORT. The decoder and the encoder undo each other, and what one step can do: everything, said once. -/

namespace Sys2Proof

theorem decode_encode (i : Instr) : decode (encode i) = .ok i := by cases i <;> rfl

theorem tableByte_encode (i : Instr) : tableByte 8 (encode i).toNat = encode i := by cases i <;> rfl

theorem encode_of_decode {b : Byte} {i : Instr} (h : decode b = .ok i) : encode i = b := by
  have key : ∀ b : Byte, (match decode b with | .ok i => encode i == b | .error _ => true) = true := by decide +kernel
  have := key b
  rw [h] at this
  simpa using this

/-- Every other byte is refused by name (30_encoding.md R95). -/
theorem decode_illegal (v : Byte) (hv : v = 0x00 ∨ 0x0D ≤ v.toNat) : decode v = .error (.illegalCommand v) := by
  have key : ∀ v : Byte, (v = 0x00 ∨ 0x0D ≤ v.toNat) →
      (match decode v with | .error (.illegalCommand u) => u == v | .ok _ => false) = true := by decide +kernel
  have := key v hv
  cases hd : decode v with
  | ok i => rw [hd] at this; cases this
  | error e => cases e; rw [hd] at this; simp at this; rw [this]

namespace Machine

/-- Everything the engine's turn can do: pass on an idle core, complete the running command, or end an illegal byte with
ILLCMD. -/
theorem engineTurn_cases {s t : State} (h : engineTurn s = .next t) :
    (s.busy = false ∧ t = s) ∨
    (s.busy = true ∧ ∃ i, decode s.opc = .ok i ∧ t = s.complete (resultOf i s)) ∨
    (s.busy = true ∧ (∃ e, decode s.opc = .error e) ∧ t = s.errorEntry .illcmd) := by
  unfold engineTurn engineStep at h
  split at h
  · rename_i hb
    split at h
    · exact .inr (.inl ⟨hb, _, ‹_›, exec_eq_next h⟩)
    · exact .inr (.inr ⟨hb, ⟨_, ‹_›⟩, (Host.Outcome.next.inj h).symm⟩)
  · rename_i hb
    exact .inl ⟨by simpa using hb, (Host.Outcome.next.inj h).symm⟩

theorem engineTurn_next (s : State) : ∃ t, engineTurn s = .next t := by
  unfold engineTurn engineStep
  split
  · split
    · exact ⟨_, exec_eq_complete _ _⟩
    · exact ⟨_, rfl⟩
  · exact ⟨_, rfl⟩

/-- After its turn the engine is idle. -/
theorem engineTurn_idle {s t : State} (h : engineTurn s = .next t) : t.busy = false := by
  rcases engineTurn_cases h with ⟨hb, rfl⟩ | ⟨-, i, -, rfl⟩ | ⟨-, -, rfl⟩
  · exact hb
  · cases resultOf i s <;> simp
  · simp

/-- Everything a step can do: the engine's turn, with none pending or with one first in the queue, or a cycle. -/
theorem step_cases {s t : State} (h : step s = .next t) :
    (s.queue = [] ∧ engineTurn s = .next t) ∨
    (∃ rest, s.queue = .engine :: rest ∧ engineTurn { s with queue := rest } = .next t) ∨
    (∃ p rest, s.queue = .cycle p :: rest ∧ t = busCycle { s with queue := rest } p) := by
  unfold step at h
  split at h
  · exact .inl ⟨‹_›, h⟩
  · exact .inr (.inl ⟨_, ‹_›, h⟩)
  · exact .inr (.inr ⟨_, _, ‹_›, (Host.Outcome.next.inj h).symm⟩)

theorem step_of_nil {s : State} (h : s.queue = []) : step s = engineTurn s := by simp [step, h]

theorem step_of_engine {s : State} {rest : List Event} (h : s.queue = .engine :: rest) :
    step s = engineTurn { s with queue := rest } := by simp [step, h]

theorem step_of_cycle {s : State} {p : Pins} {rest : List Event} (h : s.queue = .cycle p :: rest) :
    step s = .next (busCycle { s with queue := rest } p) := by simp [step, h]

/-- The completion does not touch the model's own fields, and does not depend on them. -/
theorem engineStep_own (s : State) (q : List Event) (r : Byte) (t : State) (h : engineStep s = .next t) :
    engineStep { s with queue := q, rdata := r } = .next { t with queue := q, rdata := r } := by
  unfold engineStep at h ⊢
  show (match decode s.opc with | .ok i => _ | .error _ => _) = _
  cases hd : decode s.opc with
  | ok i =>
    rw [hd] at h
    simp only at h ⊢
    rw [exec_eq_complete, complete_own, ← exec_eq_next h]
  | error e =>
    rw [hd] at h
    cases h
    rfl

/-- Everything a cycle can do to `STATUS` and `ERRCODE`: reset them, leave them, start a command, acknowledge. -/
theorem busCycle_status_cases {s t : State} {p : Pins} {rest : List Event} (hq : s.queue = .cycle p :: rest)
    (ht : t = busCycle { s with queue := rest } p) :
    ResetsNow s ∨ (t.status = s.status ∧ t.errcode = s.errcode) ∨
    (∃ v, WritesNow s 0x000 v ∧ t.status = startStatus s.status ∧ t.errcode = 0) ∨
    (∃ v, WritesNow s 0x001 v ∧ t.status = ackStatus s.status v ∧ t.errcode = s.errcode) := by
  subst ht
  obtain ⟨rst, sel, we, a, v⟩ := p
  cases rst
  · right
    cases hw : (sel && we)
    · left; simp [busCycle, cycleCore, hw]
    · simp at hw
      obtain ⟨rfl, rfl⟩ := hw
      rcases busWrite_cases { s with queue := rest } a v with h | ⟨it, i, hb, hl, h⟩
      · left; simp [busCycle, cycleCore, h]
      · by_cases h0 : it = .cmd
        · subst h0
          have := eq_zero_of_locate_cmd hl
          subst this
          right; left
          refine ⟨v, ⟨rest, hq, hb⟩, ?_⟩
          simp only [busCycle, cycleCore, Bool.false_eq_true, if_false, Bool.and_self, if_true]
          rw [h]
          exact ⟨rfl, rfl⟩
        · by_cases h1 : it = .status
          · subst h1
            have h2 := locate_inj (hl.trans (by rw [show i = 0 from Nat.lt_one_iff.1 (locate_some a _ hl).2])) locate_status
            subst h2
            right; right
            refine ⟨v, ⟨rest, hq, hb⟩, ?_⟩
            simp only [busCycle, cycleCore, Bool.false_eq_true, if_false, Bool.and_self, if_true]
            rw [h]
            exact ⟨rfl, rfl⟩
          · left
            simp only [busCycle, cycleCore, Bool.false_eq_true, if_false, Bool.and_self, if_true]
            rw [h]
            cases it <;> first | exact ⟨rfl, rfl⟩ | exact absurd rfl h0 | exact absurd rfl h1
  · exact .inl ⟨_, _, hq, rfl⟩

end Machine

end Sys2Proof
end

