-- ==== Sys2Proof/Tests/Slice0.lean ====
section
/-! SUPPORT. The model's own tests. Expected values come from the spec: the opcode map of 30_encoding.md R94, the worked
lines of the rules, and the vectors V3 to V11 of 95_test_vectors.md. Below them, the witnesses: for each obligation with
hypotheses, a state and operands that meet them. -/

namespace Sys2Proof.Tests

open Sys2Proof.Machine

/-! ### Well-formedness and decoding -/

theorem test_wellFormed_refuses_zero : legalCode 0x00 = false := by decide
theorem test_wellFormed_refuses_after_last : legalCode 0x0D = false := by decide
theorem test_wellFormed_refuses_high_bits : legalCode 0x81 = false ∧ legalCode 0xFF = false := by decide
theorem test_wellFormed_accepts_ends : legalCode 0x01 = true ∧ legalCode 0x0C = true := by decide

theorem test_decode_b32enc : decodeTableWord 8 0b00000001 = some .b32enc := by decide
theorem test_decode_b32encp : decodeTableWord 8 0b00000010 = some .b32encp := by decide
theorem test_decode_b32dec : decodeTableWord 8 0b00000011 = some .b32dec := by decide
theorem test_decode_keyld : decodeTableWord 8 0b00000100 = some .keyld := by decide
theorem test_decode_keyclr : decodeTableWord 8 0b00000101 = some .keyclr := by decide
theorem test_decode_sha1 : decodeTableWord 8 0b00000110 = some .sha1 := by decide
theorem test_decode_hmac : decodeTableWord 8 0b00000111 = some .hmac := by decide
theorem test_decode_trunc : decodeTableWord 8 0b00001000 = some .trunc := by decide
theorem test_decode_hotp : decodeTableWord 8 0b00001001 = some .hotp := by decide
theorem test_decode_tdiv : decodeTableWord 8 0b00001010 = some .tdiv := by decide
theorem test_decode_codes : decodeTableWord 8 0b00001011 = some .codes := by decide
theorem test_decode_valid : decodeTableWord 8 0b00001100 = some .valid := by decide
theorem test_decode_reserved : decodeTableWord 8 0x00 = none ∧ decodeTableWord 8 0x0D = none := by decide

/-! ### One step of each command -/

/-- What a step's next state shows. -/
def seen {α : Type} (o : Host.Outcome State Fault Refusal) (f : State → α) : Option α :=
  match o with
  | .next t => some (f t)
  | _ => none

/-- The step that runs the command of a table word first thing. -/
def runs (s : State) (w : Nat) : Host.Outcome State Fault Refusal := step (s.withFetchWord 8 w)

/-- `RFCKEY`: "12345678901234567890" (95_test_vectors.md). -/
def rfcKey : List Byte :=
  [0x31, 0x32, 0x33, 0x34, 0x35, 0x36, 0x37, 0x38, 0x39, 0x30, 0x31, 0x32, 0x33, 0x34, 0x35, 0x36, 0x37, 0x38, 0x39, 0x30]

/-- Reset, then `RFCKEY` loaded. -/
def keyed : State := { State.reset with key := fill 64 rfcKey, klen := 20, status := 0x10 }

/-- Some bytes in `DBUF`. -/
def withBytes (s : State) (b : List Byte) : State := { s with dbuf := fill 64 b, dlen := BitVec.ofNat 8 b.length }

/-- Some characters in `TBUF`. -/
def withText (s : State) (t : List Byte) : State := { s with tbuf := fill 104 t, tlen := BitVec.ofNat 8 t.length }

/-- A candidate. -/
def withCandidate (s : State) (t : List Byte) : State := { s with cand := fill 8 t, clen := BitVec.ofNat 8 t.length }

/-- "foo" -/
def foo : List Byte := [0x66, 0x6F, 0x6F]

/-- R118's example: "foo" gives "MZXW6". -/
theorem test_b32enc_foo : seen (runs (withBytes .reset foo) 0x01) (fun t => (t.text, t.status)) =
    some ([0x4D, 0x5A, 0x58, 0x57, 0x36], 0x02) := by decide

/-- V3: `DLEN` = 65 gives `ERRCODE` 0x03. -/
theorem test_b32enc_length : seen (runs { State.reset with dlen := 65 } 0x01) (fun t => (t.errcode, t.status)) =
    some (0x03, 0x06) := by decide

/-- R119's example: "foo" gives "MZXW6===". -/
theorem test_b32encp_foo : seen (runs (withBytes .reset foo) 0x02) (fun t => (t.text, t.status)) =
    some ([0x4D, 0x5A, 0x58, 0x57, 0x36, 0x3D, 0x3D, 0x3D], 0x02) := by decide

/-- V4: "MZXW6===" gives "foo". -/
theorem test_b32dec_foo :
    seen (runs (withText .reset [0x4D, 0x5A, 0x58, 0x57, 0x36, 0x3D, 0x3D, 0x3D]) 0x03) (fun t => (t.data, t.status)) =
      some (foo, 0x02) := by decide

/-- V4: "MZ" has left-over bits that are not zero. -/
theorem test_b32dec_leftover :
    seen (runs (withText .reset [0x4D, 0x5A]) 0x03) (fun t => (t.dlen, t.errcode, t.status)) = some (0, 0x04, 0x06) := by
  decide

/-- R140: the bytes and the length of the secret, and KEYV. -/
theorem test_keyld_secret : seen (runs (withBytes .reset rfcKey) 0x04) (fun t => (t.secret, t.klen, t.status)) =
    some (rfcKey, 20, 0x12) := by decide

/-- R141: KEYV, the key and a derived register are zero. -/
theorem test_keyclr_zero :
    seen (runs { keyed with coden := 0x000B8618 } 0x05) (fun t => (t.key.toList, t.klen, t.coden, t.status)) =
      some (List.replicate 64 0, 0, 0, 0x02) := by decide

/-- V5: the digest of "abc". -/
theorem test_sha1_abc :
    seen (runs (withBytes .reset [0x61, 0x62, 0x63]) 0x06) (fun t => (t.mac.toList, t.status)) =
      some (bytesBE 0xa9993e364706816aba3e25717850c26c9cd0d89d 20, 0x02) := by decide +kernel

/-- V5: "a" 56 times, the smallest message of two blocks. -/
theorem test_sha1_two_blocks : seen (runs (withBytes .reset (List.replicate 56 0x61)) 0x06) (fun t => t.mac.toList) =
    some (bytesBE 0xc2db330f6083854c99d4b5bfb6e8f29f201be699 20) := by decide +kernel

/-- V6: the MAC of eight zero bytes under `RFCKEY`. -/
theorem test_hmac_rfcKey : seen (runs { keyed with dlen := 8 } 0x07) (fun t => (t.mac.toList, t.status)) =
    some (bytesBE 0xcc93cf18508d94934c64b65d8ba7667fb7cde4b0 20, 0x12) := by decide +kernel

/-- V7: the worked example 1357872921. -/
theorem test_trunc_worked :
    seen (runs { State.reset with mac := fill 20 (bytesBE 0x1f8698690e02ca16618550ef7f19da8e945b555a 20) } 0x08)
        (fun t => (t.offs, t.bin, t.coden, t.code1.toList)) =
      some (0x0A, 0x50EF7F19, 0x000D51D9, [0x38, 0x37, 0x32, 0x39, 0x32, 0x31]) := by decide

/-- V7: all ones; the top bit is masked. -/
theorem test_trunc_top_bit :
    seen (runs { State.reset with mac := fill 20 (List.replicate 20 0xFF) } 0x08) (fun t => (t.offs, t.bin)) =
      some (0x0F, 0x7FFFFFFF) := by decide

/-- V2: counter 0 gives "755224". -/
theorem test_hotp_zero : seen (runs keyed 0x09) (fun t => (t.code1.toList, t.bin, t.status)) =
    some ([0x37, 0x35, 0x35, 0x32, 0x32, 0x34], 0x4C93CF18, 0x12) := by decide +kernel

/-- V8: without a key, `ERRCODE` 0x02. -/
theorem test_hotp_nokey : seen (runs .reset 0x09) (fun t => (t.errcode, t.status)) = some (0x02, 0x06) := by
  decide

/-- V9: 2^64 - 1. -/
theorem test_tdiv_largest : seen (runs { State.reset with time := 0xFFFFFFFFFFFFFFFF } 0x0A) (fun t => (t.ctr, t.status)) =
    some (0x0888888888888888, 0x02) := by decide

/-- V10: `TIME` = 0 shows the code of the counter -1 first. -/
theorem test_codes_zero :
    seen (runs keyed 0x0B) (fun t => (t.ctr, t.code0.toList, t.code1.toList, t.code2.toList)) =
      some (0, [0x30, 0x39, 0x34, 0x34, 0x35, 0x31], [0x37, 0x35, 0x35, 0x32, 0x32, 0x34],
        [0x32, 0x38, 0x37, 0x30, 0x38, 0x32]) := by decide +kernel

/-- V11: at time 59 the next code, "359152", matches. -/
theorem test_valid_next :
    seen (runs (withCandidate { keyed with time := 59 } [0x33, 0x35, 0x39, 0x31, 0x35, 0x32]) 0x0C) (fun t => t.status) =
      some 0x1A := by decide +kernel

/-- V11: at time 59 the code of base + 2, "969429", does not match. -/
theorem test_valid_outside :
    seen (runs (withCandidate { keyed with time := 59 } [0x39, 0x36, 0x39, 0x34, 0x32, 0x39]) 0x0C) (fun t => t.status) =
      some 0x12 := by decide +kernel

/-! ### One cycle of the pins -/

/-- A state whose next turn is a cycle of the pins. -/
def atCycle (s : State) (p : Pins) : State := { s with queue := [.cycle p] }

/-- R68: byte 7 of `TIME` is its least significant one. -/
theorem test_write_time :
    seen (step (atCycle { State.reset with time := 0x1122334455667788 } ⟨false, true, true, 0x00F, 0xAB⟩)) (fun t => t.time) =
      some 0x11223344556677AB := by decide

/-- R66: while busy, a read of `MAC` shows 0x00 and a write of `DLEN` is ignored. -/
theorem test_busy_accesses :
    seen (step (atCycle { State.reset with status := 0x01, mac := fill 20 [0x55] } ⟨false, true, false, 0x040, 0⟩))
      (fun t => t.rdata) = some 0x00 ∧
    seen (step (atCycle { State.reset with status := 0x01 } ⟨false, true, true, 0x004, 9⟩)) (fun t => t.dlen) = some 0 := by
  decide

/-- R42: writing `KLEN` does nothing. -/
theorem test_write_klen : seen (step (atCycle keyed ⟨false, true, true, 0x007, 9⟩)) (fun t => t.klen) = some 20 := by
  decide

/-! ### Witnesses: hypotheses of the obligations that something meets -/

/-- A command started in `keyed`. -/
def busyKeyed (i : Instr) : State := keyed.start (encode i)

/-- Six digits as the candidate of `keyed`. -/
def asking : State := withCandidate keyed [0x37, 0x35, 0x35, 0x32, 0x32, 0x34]

theorem keyed_keyv : keyed.keyv = true := by decide
theorem keyed_idle : keyed.busy = false := by decide
theorem busyKeyed_busy (i : Instr) : (busyKeyed i).busy = true := State.start_busy _ _

/-- The invariants as one condition that a concrete state decides. -/
theorem inv_iff (s : State) : Inv s ↔
    (s.status.toNat < 32 ∧ s.ctrl.toNat < 2 ∧ s.offs.toNat < 16) ∧
    (s.busy = true → s.done = false ∧ s.err = false ∧ s.matched = false ∧ s.errcode = 0) ∧
    ((s.err = true ↔ s.errcode ≠ 0) ∧ s.errcode.toNat ≤ 5) ∧
    (s.matched = true → s.err = false ∧ s.opc = encode .valid) ∧
    (s.klen.toNat ≤ 64 ∧ (∀ i : Fin 64, s.klen.toNat ≤ i.val → s.key[i] = 0) ∧
      (s.keyv = false → s.klen = 0 ∧ s.key = zeros 64)) ∧
    (s.bin.toNat < 2 ^ 31 ∧ s.coden.toNat ≤ 999999) ∧ (codeRegOk s.code0 ∧ codeRegOk s.code1 ∧ codeRegOk s.code2) :=
  ⟨fun ⟨a, b, d, e, f, g, h⟩ => ⟨a, b, d, e, f, g, h⟩, fun ⟨a, b, d, e, f, g, h⟩ => ⟨a, b, d, e, f, g, h⟩⟩

theorem keyed_inv : Inv keyed := (inv_iff _).2 (by decide)

theorem busyKeyed_inv (i : Instr) : Inv (busyKeyed i) := (inv_iff _).2 (by cases i <;> decide)

theorem witness_DecodeAndEncodeAgree : decode 0x01 = .ok .b32enc ∧ decode 0x0C = .ok .valid := by decide

theorem witness_StepRunsTheRunningCommand_nil :
    (busyKeyed .hotp).busy = true ∧ decode (busyKeyed .hotp).opc = .ok .hotp ∧ (busyKeyed .hotp).queue = [] := by decide
theorem witness_StepRunsTheRunningCommand_engine :
    ∃ s : State, s.busy = true ∧ decode s.opc = .ok .codes ∧ s.queue = .engine :: HostOp.ack :=
  ⟨{ busyKeyed .codes with queue := .engine :: HostOp.ack }, busyKeyed_busy .codes, rfl, rfl⟩

/-- The four kinds of cycle: reset, write, read, no access. -/
theorem witness_CycleFollowsThePins :
    (∃ (s : State) (p : Pins), s.queue = .cycle p :: [] ∧ p.rst = true) ∧
    (∃ (s : State) (p : Pins), s.queue = .cycle p :: [] ∧ p.rst = false ∧ p.sel = true ∧ p.we = true) ∧
    (∃ (s : State) (p : Pins), s.queue = .cycle p :: [] ∧ p.rst = false ∧ p.sel = true ∧ p.we = false) ∧
    (∃ (s : State) (p : Pins), s.queue = .cycle p :: [] ∧ p.rst = false ∧ p.sel = false) :=
  ⟨⟨atCycle keyed ⟨true, true, true, 0, 0x0C⟩, _, rfl, rfl⟩, ⟨atCycle keyed ⟨false, true, true, 0, 0x0C⟩, _, rfl, rfl, rfl, rfl⟩,
    ⟨atCycle keyed ⟨false, true, false, 0x167, 0⟩, _, rfl, rfl, rfl, rfl⟩, ⟨atCycle keyed ⟨false, false, true, 0, 0⟩, _, rfl, rfl, rfl⟩⟩

/-- A running command, and a host write to an idle core. -/
theorem witness_StepKeepsInvariants :
    (∃ t, Inv (busyKeyed .keyclr) ∧ step (busyKeyed .keyclr) = .next t) ∧
    (∃ t, Inv keyed ∧ step (atCycle keyed ⟨false, true, true, 0, 0x09⟩) = .next t) :=
  ⟨⟨_, busyKeyed_inv _, rfl⟩, ⟨_, keyed_inv, rfl⟩⟩

theorem witness_ReachableStatesSatisfyInvariants : ∃ t, step State.reset = .next t ∧ Reachable t :=
  ⟨_, rfl, .step _ _ (.reset []) rfl⟩

/-- Reset in the middle of a command, with a write on the pins. -/
theorem witness_ResetClearsEveryItem : ∃ (p : Pins) (t : State),
    (atCycle (busyKeyed .hotp) p).queue = .cycle p :: [] ∧ p.rst = true ∧ step (atCycle (busyKeyed .hotp) p) = .next t :=
  ⟨⟨true, true, true, 0x004, 0x40⟩, _, rfl, rfl, rfl⟩

theorem witness_IdleReadShowsTheAddressedItem :
    keyed.busy = false ∧ Unmapped 0x055 ∧
    (atCycle keyed ⟨false, true, false, 0x1FF, 0⟩).queue = .cycle ⟨false, true, false, 0x1FF, 0⟩ :: [] := by decide

theorem witness_MultiByteItemsAreLaidOutByAddress : keyed.busy = false := keyed_idle

/-- Both ends of every range of R63. -/
theorem witness_UnmappedAddressesAreInert :
    [0x02E, 0x02F, 0x036, 0x037, 0x03E, 0x03F, 0x055, 0x07F, 0x0C0, 0x0FF, 0x168, 0x1FF].all
      (fun n => decide (Unmapped (BitVec.ofNat 9 n))) = true := by decide

/-- Both ends of every range of R65. -/
theorem witness_IdleWriteEffects :
    keyed.busy = false ∧
    [0x004, 0x006, 0x008, 0x017, 0x020, 0x027, 0x040, 0x053, 0x080, 0x0BF, 0x100, 0x167].all
      (fun n => decide (PlainWritable (BitVec.ofNat 9 n))) = true ∧
    [0x002, 0x007, 0x018, 0x01F, 0x028, 0x02D, 0x030, 0x035, 0x038, 0x03D, 0x054].all
      (fun n => decide (ReadOnly (BitVec.ofNat 9 n))) = true := by decide

/-- The classes of addresses of R63 and R65 share none and leave none out. -/
theorem witness_address_classes : ∀ a : Addr,
    ([decide (a = 0x000), decide (a = 0x001), decide (a = 0x003), decide (PlainWritable a), decide (ReadOnly a),
      decide (Unmapped a)].filter id).length = 1 := by decide

theorem witness_BusyAccessesAreIgnored :
    (busyKeyed .hotp).busy = true ∧ Inv (busyKeyed .hotp) ∧ (0x1FF : Addr) ≠ 0x000 ∧ (0x002 : Addr) ≠ 0x001 :=
  ⟨busyKeyed_busy _, busyKeyed_inv _, by decide, by decide⟩

theorem witness_WritesButToCmdAreIdempotent : (0x001 : Addr) ≠ 0x000 := by decide

theorem witness_StartLatchesAndClears : keyed.busy = false ∧ (busyKeyed .hotp).busy = true := by decide

/-- `OPC` changes at a start and at reset. -/
theorem witness_OpcChangesOnlyAtStartAndReset :
    (∃ t, step (atCycle keyed ⟨false, true, true, 0x000, 0x0C⟩) = .next t ∧ t.opc ≠ keyed.opc) ∧
    (∃ t, step (atCycle (busyKeyed .hotp) ⟨true, false, false, 0, 0⟩) = .next t ∧ t.opc ≠ (busyKeyed .hotp).opc) :=
  ⟨⟨_, rfl, by decide⟩, ⟨_, rfl, by decide⟩⟩

theorem witness_ErrorChangesOnlyStatus :
    (∃ t, exec .valid State.reset = .next t ∧ t.err = true) ∧ (∃ t, execIllegal State.reset = .next t ∧ t.err = true) :=
  ⟨⟨_, rfl, by decide⟩, ⟨_, rfl, by decide⟩⟩

/-- Each check of `ErrorPriority` passed and failed, at the boundary values. -/
theorem witness_ErrorPriority :
    (∃ t, execIllegal State.reset = .next t) ∧
    (∃ t, exec .sha1 { State.reset with dlen := 64 } = .next t) ∧ (∃ t, exec .keyld { State.reset with dlen := 65 } = .next t) ∧
    (∃ t, exec .b32dec { State.reset with tlen := 105 } = .next t) ∧
    (¬ AcceptedText (withText .reset [0x4D, 0x5A]).text) ∧
    (AcceptedText (withText .reset (List.replicate 104 0x41)).text ∧ (withText .reset (List.replicate 104 0x41)).tlen = 104) ∧
    (AcceptedText (withText .reset (List.replicate 103 0x41 ++ [0x3D])).text ∧
      (withText .reset (List.replicate 103 0x41 ++ [0x3D])).tlen = 104) ∧
    (∃ t, exec .hmac { keyed with dlen := 65 } = .next t) ∧ (∃ t, exec .hotp State.reset = .next t) ∧
    (∃ t, exec .valid keyed = .next t) ∧ (∃ t, exec .valid asking = .next t) ∧ (∃ t, exec .tdiv keyed = .next t) := by
  refine ⟨⟨_, rfl⟩, ⟨_, rfl⟩, ⟨_, rfl⟩, ⟨_, rfl⟩, ?_, ⟨?_, by decide⟩, ⟨?_, by decide⟩, ⟨_, rfl⟩, ⟨_, rfl⟩, ⟨_, rfl⟩, ⟨_, rfl⟩, ⟨_, rfl⟩⟩
  · rw [acceptedText_iff, show b32dec (withText .reset [0x4D, 0x5A]).text = none by decide]
    simp
  · exact (acceptedText_iff _).2 (Option.isSome_iff_exists.1 (by decide +kernel))
  · exact (acceptedText_iff _).2 (Option.isSome_iff_exists.1 (by decide +kernel))

theorem witness_FailedChecksRaiseTheirError :
    State.reset.keyv = false ∧ 64 < ({ keyed with dlen := 65 } : State).dlen.toNat ∧ keyed.keyv = true ∧
    104 < ({ State.reset with tlen := 105 } : State).tlen.toNat ∧
    ((withText .reset (List.replicate 104 0x41)).tlen.toNat = 104 ∧ AcceptedText (withText .reset (List.replicate 104 0x41)).text ∧
      (withText .reset (List.replicate 104 0x41)).tbuf[103] ≠ 0x3D) ∧
    ((withText .reset [0x4D, 0x5A]).tlen.toNat ≤ 104 ∧ ¬ AcceptedText (withText .reset [0x4D, 0x5A]).text) ∧
    keyed.clen ≠ 6 ∧ (∃ j : Fin 6, (({ keyed with clen := 6 } : State).cand.getD j 0).toNat < 0x30) := by
  refine ⟨by decide, by decide, by decide, by decide, ⟨by decide, ?_, by decide⟩, ⟨by decide, ?_⟩, by decide, by decide⟩
  · exact (acceptedText_iff _).2 (Option.isSome_iff_exists.1 (by decide +kernel))
  · rw [acceptedText_iff, show b32dec (withText .reset [0x4D, 0x5A]).text = none by decide]
    simp

/-- A core whose last command ended with NOKEY. -/
def failed : State := { State.reset with opc := 0x09, status := 0x06, errcode := 0x02 }

/-- A core whose last command was VALID with a match. -/
def accepted : State := { asking with opc := 0x0C, status := 0x1A }

theorem witness_ErrorStatusLastsUntilTheNextStart :
    (∃ t, step (atCycle failed ⟨false, true, true, 0x000, 0x05⟩) = .next t ∧ failed.busy = false ∧ t.errcode ≠ failed.errcode) ∧
    (∃ t, step (atCycle failed ⟨true, false, false, 0, 0⟩) = .next t ∧ t.err ≠ failed.err) ∧
    (∃ t, step (atCycle accepted ⟨false, true, true, 0x000, 0x05⟩) = .next t ∧ accepted.busy = false ∧
      t.matched ≠ accepted.matched) ∧
    (0x02 : Byte).getLsbD 1 = true ∧ (busyKeyed .hotp).busy = true :=
  ⟨⟨_, rfl, by decide, by decide⟩, ⟨_, rfl, by decide⟩, ⟨_, rfl, by decide, by decide⟩, by decide, busyKeyed_busy _⟩

/-- A state and a next state for each cause in the table of R25. -/
theorem witness_StatusBitsChangeOnlyForListedCauses :
    (∃ t, Inv keyed ∧ step (atCycle keyed ⟨false, true, true, 0x000, 0x0A⟩) = .next t ∧ t.busy = true) ∧
    (∃ t, Inv (busyKeyed .tdiv) ∧ step (busyKeyed .tdiv) = .next t ∧ t.busy = false ∧ t.done = true) ∧
    (∃ t, Inv failed ∧ step (atCycle failed ⟨false, true, true, 0x001, 0x02⟩) = .next t ∧ failed.done = true ∧ t.done = false) ∧
    (∃ t, Inv (State.reset.start 0x09) ∧ step (State.reset.start 0x09) = .next t ∧ t.err = true) ∧
    (∃ t, Inv failed ∧ step (atCycle failed ⟨false, true, true, 0x000, 0x0A⟩) = .next t ∧ failed.err = true ∧ t.err = false) ∧
    (∃ t, Inv accepted ∧ step (atCycle accepted ⟨true, true, true, 0x000, 0x0A⟩) = .next t ∧ accepted.matched = true ∧
      t.matched = false) ∧
    (∃ t, Inv (State.reset.start 0x04) ∧ step (State.reset.start 0x04) = .next t ∧ t.keyv = true) ∧
    (∃ t, Inv (busyKeyed .keyclr) ∧ step (busyKeyed .keyclr) = .next t ∧ t.keyv = false) := by
  refine ⟨⟨_, keyed_inv, rfl, by decide⟩, ⟨_, busyKeyed_inv _, rfl, by decide, by decide⟩, ⟨_, ?_, rfl, by decide, by decide⟩,
    ⟨_, ?_, rfl, by decide⟩, ⟨_, ?_, rfl, by decide, by decide⟩, ⟨_, ?_, rfl, by decide, by decide⟩, ⟨_, ?_, rfl, by decide⟩,
    ⟨_, busyKeyed_inv _, rfl, by decide⟩⟩ <;> exact (inv_iff _).2 (by decide)

/-- MATCH rises: VALID asked for the current code of time 0. -/
theorem witness_StatusBits_match : Inv (asking.start 0x0C) ∧ seen (step (asking.start 0x0C)) (fun t => t.matched) = some true :=
  ⟨(inv_iff _).2 (by decide), by decide +kernel⟩

theorem witness_IllegalByteCompletesWithIllcmd :
    State.reset.busy = false ∧ (0x0D ≤ (0x0D : Byte).toNat) ∧ (0x0D ≤ (0xFF : Byte).toNat) := by decide

theorem witness_IrqFollowsEnableAndDone :
    (∃ t, exec .tdiv { keyed with ctrl := 0x01 } = .next t) ∧ (∃ t, execIllegal State.reset = .next t) ∧ keyed.busy = false ∧
    (0x01 : Byte).getLsbD 0 = true ∧ (0x02 : Byte).getLsbD 1 = true :=
  ⟨⟨_, rfl⟩, ⟨_, rfl⟩, by decide, by decide, by decide⟩

theorem witness_StartedCommandCompletes : (busyKeyed .codes).busy = true := busyKeyed_busy _

/-- A run of HOTP with a write and a read of `STATUS` before it completes. -/
theorem witness_CompletionTimeDoesNotMatter : ∃ t,
    (busyKeyed .hotp).busy = true ∧
    (∀ p ∈ [⟨false, true, true, 0x000, 0x05⟩, (⟨false, true, false, 0x001, 0⟩ : Pins)], p.rst = false) ∧
    engineStep { busyKeyed .hotp with queue := [] } = .next t :=
  ⟨_, busyKeyed_busy _, by decide, exec_eq_complete .hotp _⟩

/-- Two states that differ in what HOTP does not read, with and without a key. -/
theorem witness_CommandsReadAndWriteWhatR92Lists :
    (∃ t v, exec .hotp keyed = .next t ∧ exec .hotp { keyed with dlen := 7, mac := fill 20 [0x55] } = .next v ∧
      SameOperands .hotp keyed { keyed with dlen := 7, mac := fill 20 [0x55] } ∧ t.errcode = 0x00) ∧
    (∃ t, exec .hotp State.reset = .next t ∧ t.errcode = 0x02) :=
  ⟨⟨_, _, exec_of_ok (cmdHotp_ok keyed_keyv), exec_of_ok (cmdHotp_ok (by decide)), ⟨⟨by decide, rfl, rfl⟩, rfl⟩, rfl⟩, ⟨_, rfl, rfl⟩⟩

theorem witness_CommandsLeaveOtherAddressesAlone : ∃ t, exec .codes keyed = .next t ∧ ¬ CommandWrites .codes 0x008 :=
  ⟨_, exec_of_ok (cmdCodes_ok keyed_keyv), by decide⟩

/-- The key changes at KEYLD, at KEYCLR and at reset. -/
theorem witness_SecretLifetime :
    (∃ t, step ((withBytes .reset foo).start 0x04) = .next t ∧ t.klen ≠ ((withBytes .reset foo).start 0x04).klen) ∧
    (∃ t, step (busyKeyed .keyclr) = .next t ∧ t.klen ≠ (busyKeyed .keyclr).klen) ∧
    (∃ t, step (atCycle keyed ⟨true, false, false, 0, 0⟩) = .next t ∧ t.klen ≠ keyed.klen) :=
  ⟨⟨_, rfl, by decide⟩, ⟨_, rfl, by decide⟩, ⟨_, rfl, by decide⟩⟩

theorem witness_BusNeitherReadsNorWritesTheKey : (⟨false, true, true, 0x1FF, 0xFF⟩ : Pins).rst = false := by decide

/-- The largest and the smallest length. -/
theorem witness_B32encEncodesTheData :
    ({ State.reset with dlen := 64 } : State).dlen.toNat ≤ 64 ∧ State.reset.dlen.toNat ≤ 64 := by decide
theorem witness_B32encpPadsTheEncoding :
    ({ State.reset with dlen := 64 } : State).dlen.toNat ≤ 64 ∧ State.reset.dlen.toNat ≤ 64 := by decide
theorem witness_EncodeThenDecodeRestoresTheData :
    (withBytes .reset foo).dlen.toNat ≤ 64 ∧ (∃ t, exec .b32enc (withBytes .reset foo) = .next t) ∧
    (∃ t, exec .b32encp (withBytes .reset foo) = .next t) := ⟨by decide, ⟨_, rfl⟩, ⟨_, rfl⟩⟩

/-- "MY======", which stands for one byte: symbols 12 and 24, six pads. -/
theorem witness_B32decDecodesTheText :
    (withText .reset [0x4D, 0x59, 0x3D, 0x3D, 0x3D, 0x3D, 0x3D, 0x3D]).tlen.toNat ≤ 104 ∧
    AcceptedText (withText .reset [0x4D, 0x59, 0x3D, 0x3D, 0x3D, 0x3D, 0x3D, 0x3D]).text ∧
    (∀ v ∈ [12, 24], v < 32) ∧
    (withText .reset [0x4D, 0x59, 0x3D, 0x3D, 0x3D, 0x3D, 0x3D, 0x3D]).text =
      ([12, 24].map fun v => alphabet.getD v 0) ++ List.replicate 6 0x3D ∧ 5 * [12, 24].length / 8 ≤ 64 :=
  ⟨by decide, (acceptedText_iff _).2 (Option.isSome_iff_exists.1 (by decide)), by decide, by decide, by decide⟩

theorem witness_Base32CodeIsExact :
    (b32dec [0x4D, 0x59] = some [0x66] ∧ ([0x4D, 0x59] : List Byte).getLastD 0 ≠ 0x3D) ∧
    b32dec [0x4D, 0x59, 0x3D, 0x3D, 0x3D, 0x3D, 0x3D, 0x3D] = some [0x66] ∧ (0x4D : Byte) ∈ b32enc [0x66] := by decide

theorem witness_KeyldLoadsTheData : ({ State.reset with dlen := 64 } : State).dlen.toNat ≤ 64 := by decide

/-- R158: "abc" gives one block of 64 bytes, whose words 0, 15, 16 and 79 the rule lists; 56 bytes give two blocks. -/
theorem witness_Sha1ScheduleRecurrence :
    0 < (sha1Pad [0x61, 0x62, 0x63]).length / 64 ∧ 1 < (sha1Pad (List.replicate 56 0x61)).length / 64 ∧
    (sha1Pad [0x61, 0x62, 0x63]).length = 64 ∧
    [0, 15, 16, 79].map (fun t => (schedule (sha1Pad [0x61, 0x62, 0x63])).getD t 0) =
      [0x61626380, 0x00000018, 0xC2C4C700, 0x822E0879] := by decide +kernel

/-- The working words of a block, round by round. -/
def roundsOf (h : Five) (b : List Byte) (t : Nat) : Five :=
  match t with
  | 0 => h
  | n + 1 => sha1Round n ((schedule b).getD n 0) (roundsOf h b n)

/-- The chaining values of a message, block by block. -/
def chainOf (m : List Byte) (i : Nat) : Five :=
  match i with
  | 0 => sha1Init
  | n + 1 => sha1Compress (chainOf m n) (((sha1Pad m).drop (64 * n)).take 64)

/-- Sequences that follow the rounds and the blocks exist for every block and every message. -/
theorem witness_Sha1FollowsTheRounds (h : Five) (b m : List Byte) :
    (roundsOf h b 0 = h ∧ ∀ t, roundsOf h b (t + 1) = sha1Round t ((schedule b).getD t 0) (roundsOf h b t)) ∧
    chainOf m 0 = ⟨0x67452301, 0xEFCDAB89, 0x98BADCFE, 0x10325476, 0xC3D2E1F0⟩ ∧
    ∀ i, chainOf m (i + 1) = sha1Compress (chainOf m i) (((sha1Pad m).drop (64 * i)).take 64) :=
  ⟨⟨rfl, fun _ => rfl⟩, rfl, fun _ => rfl⟩

theorem witness_Sha1DigestsTheData : ({ State.reset with dlen := 64 } : State).dlen.toNat ≤ 64 := by decide

theorem witness_HmacAuthenticatesTheData : keyed.keyv = true ∧ keyed.dlen.toNat ≤ 64 ∧ Inv keyed :=
  ⟨keyed_keyv, by decide, keyed_inv⟩

/-- "k" with 63 zero bytes after it fills the key store. -/
theorem witness_TrailingZeroKeyBytesDoNotMatter : ([0x6B] : List Byte).length + 63 ≤ 64 := by decide

theorem witness_HotpDerivesTheCode : keyed.keyv = true := keyed_keyv

theorem witness_HmacThenTruncIsHotp :
    ({ withBytes keyed (bytesBE 0x023523EC 8) with ctr := 0x023523EC } : State).keyv = true ∧
    ({ withBytes keyed (bytesBE 0x023523EC 8) with ctr := 0x023523EC } : State).dlen = 8 ∧
    ∀ j, j < 8 → ({ withBytes keyed (bytesBE 0x023523EC 8) with ctr := 0x023523EC } : State).dbuf.getD j 0 =
      BitVec.ofNat 8 ((0x023523EC : Word64).toNat / 256 ^ (7 - j)) := by decide

theorem witness_RenderingIsDecimal : 999999 < 1000000 ∧ digits6 999999 = digits6 999999 := ⟨by decide, rfl⟩

theorem witness_CodesShowsTheWindow : keyed.keyv = true := keyed_keyv
theorem witness_TdivThenHotpIsCodes : keyed.keyv = true := keyed_keyv

theorem witness_ValidAcceptsExactlyTheWindow :
    asking.keyv = true ∧ asking.clen = 6 ∧
    ∀ j : Fin 6, 0x30 ≤ (asking.cand.getD j 0).toNat ∧ (asking.cand.getD j 0).toNat ≤ 0x39 := by decide

/-- Without a key; with a key and an empty candidate; with a key and six characters, the last no digit. -/
theorem witness_ValidRejectsByName :
    State.reset.keyv = false ∧ (keyed.keyv = true ∧ keyed.clen ≠ 6) ∧
    ((withCandidate keyed [0x37, 0x35, 0x35, 0x32, 0x32, 0x61]).keyv = true ∧
      ∃ j : Fin 6, ((withCandidate keyed [0x37, 0x35, 0x35, 0x32, 0x32, 0x61]).cand.getD j 0).toNat < 0x30 ∨
        0x39 < ((withCandidate keyed [0x37, 0x35, 0x35, 0x32, 0x32, 0x61]).cand.getD j 0).toNat) := by decide

/-- `keyed` at time 0 shows "755224" as its current code, and `asking` asks for that. -/
theorem witness_ValidAcceptsWhatCodesShows : ∃ w,
    keyed.keyv = true ∧ exec .codes keyed = .next w ∧ asking.keyv = keyed.keyv ∧ asking.klen = keyed.klen ∧
    asking.key = keyed.key ∧ asking.time = keyed.time ∧ asking.clen = 6 ∧
    ∀ j : Fin 6, asking.cand.getD j 0 = w.code1[j] :=
  ⟨_, keyed_keyv, exec_of_ok (cmdCodes_ok keyed_keyv), by decide, rfl, rfl, rfl, by decide, by decide +kernel⟩

end Sys2Proof.Tests
end

section
/-! SUPPORT. Reset clears the core (10_state.md R45, 70_reset_and_hazards.md R260). -/

namespace Sys2Proof.Machine

/-- A cycle with `rst` asserted resets the core, whatever the other pins show (R260). -/
theorem cycleCore_of_rst (s : State) {p : Pins} (hr : p.rst = true) : cycleCore s p = s.resetCore := if_pos hr

/-- No flag of a reset core is set. -/
theorem resetCore_flags (s : State) :
    s.resetCore.busy = false ∧ s.resetCore.done = false ∧ s.resetCore.err = false ∧ s.resetCore.matched = false ∧
    s.resetCore.keyv = false ∧ s.resetCore.irq = false :=
  ⟨s.resetCore_busy, s.resetCore_done, s.resetCore_err, s.resetCore_matched, s.resetCore_keyv, s.resetCore_irq⟩

/-- Settles O10: the step is a cycle that resets the core, and every item of the reset state is zero. -/
theorem resetClearsEveryItem : Obligations.ResetClearsEveryItem := by
  intro s t p rest hq hr h
  rw [step_of_cycle hq, busCycle, cycleCore_of_rst _ hr] at h
  cases h
  have zero {n : Nat} (i : Fin n) : (Vector.replicate n (0 : Byte))[i] = 0x00 := Vector.getElem_replicate i.isLt
  exact ⟨rfl, rfl, rfl, rfl, rfl, rfl, rfl, rfl, rfl, rfl, rfl, rfl, rfl,
    zero, zero, zero, zero, zero, zero, zero, zero, resetCore_flags s⟩

end Sys2Proof.Machine
end

section
/-! SUPPORT. What changes `OPC` (10_state.md R22). -/

namespace Sys2Proof.Machine

/-- Only the write of `CMD` changes `OPC`. -/
theorem itemWrite_opc (s : State) {it : Item} (i : Nat) (v : Byte) (h : it ≠ .cmd) :
    (itemWrite s it i v).opc = s.opc := by
  cases it with
  | cmd => exact absurd rfl h
  | _ => rfl

/-- A host write that changes `OPC` is an accepted write to `CMD`. -/
theorem busWrite_opc_ne {s : State} {a : Addr} {v : Byte} (h : (busWrite s a v).opc ≠ s.opc) :
    s.busy = false ∧ a = 0x000 := by
  rcases busWrite_cases s a v with hw | ⟨it, i, hb, hl, hw⟩ <;> rw [hw] at h
  · exact absurd rfl h
  · have hit : it = .cmd := by
      by_contra hne
      exact h (itemWrite_opc s i v hne)
    exact ⟨hb, eq_zero_of_locate_cmd (hit ▸ hl)⟩

/-- A clock cycle that changes `OPC` is a reset or an accepted write to `CMD`. -/
theorem cycleCore_opc_ne {s : State} {p : Pins} (h : (cycleCore s p).opc ≠ s.opc) :
    p.rst = true ∨ (s.busy = false ∧ p.sel = true ∧ p.we = true ∧ p.addr = 0x000) := by
  unfold cycleCore at h
  split at h
  · exact .inl ‹_›
  · split at h
    · rename_i hw
      obtain ⟨hsel, hwe⟩ := Bool.and_eq_true_iff.1 hw
      obtain ⟨hb, ha⟩ := busWrite_opc_ne h
      exact .inr ⟨hb, hsel, hwe, ha⟩
    · exact absurd rfl h

/-- The engine's turn keeps `OPC` (30_encoding.md R93). -/
theorem engineTurn_opc {s t : State} (h : engineTurn s = .next t) : t.opc = s.opc := by
  rcases engineTurn_cases h with ⟨-, rfl⟩ | ⟨-, i, -, rfl⟩ | ⟨-, -, rfl⟩
  · rfl
  · exact (complete_frame i s).1
  · rfl

/-- A read of `CMD` shows `OPC`, idle or busy (R22, 20_memory.md R66). -/
theorem busRead_cmd (s : State) : busRead s 0x000 = s.opc := by
  cases hb : s.busy with
  | true => simp [busRead, hb]
  | false => rw [busRead_idle hb, cellAt_of_locate locate_cmd, itemByte]

/-- Settles O18: the engine's turn keeps `OPC`, and a cycle changes it by reset or a start alone. -/
theorem opcChangesOnlyAtStartAndReset : Obligations.OpcChangesOnlyAtStartAndReset := by
  refine ⟨fun s v hb => ?_, busRead_cmd, rfl, fun s t h hne => ?_⟩
  · rw [busWrite_idle hb locate_cmd]
    exact State.start_opc s v
  · rcases step_cases h with ⟨-, he⟩ | ⟨rest, -, he⟩ | ⟨p, rest, hq, rfl⟩
    · exact absurd (engineTurn_opc he) hne
    · exact absurd (engineTurn_opc he) hne
    · exact ⟨p, rest, hq, cycleCore_opc_ne (s := { s with queue := rest }) hne⟩

end Sys2Proof.Machine
end

section
/-! SUPPORT. The invariants of R44: items 1, 5, 6 and 7 speak of what is stored, items 2, 3 and 4 of the progress of a
command. A start and a completion set the latter afresh, so only the former have to be carried through `Exec`. -/

namespace Sys2Proof.Machine

/-- Items 1, 5, 6 and 7 of R44, as `Inv` states them. -/
structure StoredInv (s : State) : Prop where
  /-- Item 1. -/
  reserved : s.status.toNat < 32 ∧ s.ctrl.toNat < 2 ∧ s.offs.toNat < 16
  /-- Item 5. -/
  keyStore : s.klen.toNat ≤ 64 ∧ (∀ i : Fin 64, s.klen.toNat ≤ i.val → s.key[i] = 0) ∧
    (s.keyv = false → s.klen = 0 ∧ s.key = zeros 64)
  /-- Item 6. -/
  ranges : s.bin.toNat < 2 ^ 31 ∧ s.coden.toNat ≤ 999999
  /-- Item 7. -/
  codes : codeRegOk s.code0 ∧ codeRegOk s.code1 ∧ codeRegOk s.code2

theorem Inv.stored {s : State} (h : Inv s) : StoredInv s := ⟨h.reserved, h.keyStore, h.ranges, h.codes⟩

/-- R44 says nothing of the operand registers, the buffers, `MAC` and the model's own fields. -/
theorem Inv.of_operands {s : State} (h : Inv s) (dlen tlen clen : Byte) (time ctr : Word64) (cand : Vector Byte 8)
    (mac : Vector Byte 20) (dbuf : Vector Byte 64) (tbuf : Vector Byte 104) (queue : List Event) (rdata : Byte) :
    Inv { s with
      dlen := dlen, tlen := tlen, clen := clen, time := time, ctr := ctr, cand := cand, mac := mac, dbuf := dbuf
      tbuf := tbuf, queue := queue, rdata := rdata } :=
  ⟨h.reserved, h.busyClear, h.errIff, h.matchValid, h.keyStore, h.ranges, h.codes⟩

/-- Reset satisfies R44. -/
theorem inv_reset : Inv State.reset where
  reserved := by decide
  busyClear := by decide
  errIff := by decide
  matchValid := by decide
  keyStore := ⟨by decide, fun i _ => Vector.getElem_replicate i.isLt, fun _ => ⟨rfl, rfl⟩⟩
  ranges := by decide
  codes := ⟨.inl rfl, .inl rfl, .inl rfl⟩

/-! ### Start, completion and error entry -/

section Progress
variable {s : State} (h : StoredInv s)
include h

/-- A start clears every result, so it satisfies items 2, 3 and 4 whatever was there before (R91). -/
theorem StoredInv.start (v : Byte) : Inv (s.start v) where
  reserved := ⟨startStatus_lt_32 h.reserved.1, h.reserved.2⟩
  busyClear _ := ⟨s.start_done v, s.start_err v, s.start_matched v, rfl⟩
  errIff := by simp
  matchValid hm := by simp at hm
  keyStore := by simpa using h.keyStore
  ranges := h.ranges
  codes := h.codes

/-- A completion without error satisfies items 2, 3 and 4 where a match is VALID's (R93). -/
theorem StoredInv.succeed {hit : Bool} (hv : hit = true → s.opc = encode .valid) : Inv (s.succeed hit) where
  reserved := ⟨completionStatus_lt_32 hit false h.reserved.1, h.reserved.2⟩
  busyClear hb := by simp at hb
  errIff := by simp
  matchValid hm := ⟨s.succeed_err hit, hv (by simpa using hm)⟩
  keyStore := by simpa using h.keyStore
  ranges := h.ranges
  codes := h.codes

/-- An error entry satisfies items 2, 3 and 4 (60_exceptions.md R226). -/
theorem StoredInv.errorEntry (e : ErrorCode) : Inv (s.errorEntry e) where
  reserved := ⟨completionStatus_lt_32 false true h.reserved.1, h.reserved.2⟩
  busyClear hb := by simp at hb
  errIff := by simpa using errorCode_bounds e
  matchValid hm := by simp at hm
  keyStore := by simpa using h.keyStore
  ranges := h.ranges
  codes := h.codes

end Progress

/-! ### The writes of the commands -/

/-- A rendered code is six digits (43_hotp.md R184). -/
theorem codeRegOk_digits (m : Vector Byte 20) : codeRegOk (truncate m).digits :=
  .inr fun j => by simpa [isDigit] using truncate_digit m j

/-- The results of a truncation are in the ranges of items 1, 6 and 7, whatever was truncated (R181 to R184). -/
theorem StoredInv.putTruncation {s : State} (h : StoredInv s) (m : Vector Byte 20) : StoredInv (s.putTruncation m) where
  reserved := by
    obtain ⟨hstatus, hctrl, -⟩ := h.reserved
    refine ⟨hstatus, hctrl, ?_⟩
    show (truncOffset m).toNat < 16
    rw [truncOffset_toNat]
    exact Nat.mod_lt _ (by decide)
  keyStore := h.keyStore
  ranges := by
    constructor
    · show (binaryCode m).toNat < 2 ^ 31
      rw [binaryCode_toNat]
      exact Nat.mod_lt _ (by decide)
    · rw [State.putTruncation_coden, coden_toNat]
      exact Nat.le_of_lt_succ (Nat.mod_lt _ (by decide))
  codes := by
    obtain ⟨hcode0, -, hcode2⟩ := h.codes
    exact ⟨hcode0, codeRegOk_digits m, hcode2⟩

/-- KEYLD's writes: the key store holds the data, zero beyond its length, and KEYV says so (41_key.md R140). -/
theorem StoredInv.loadKey {s : State} (h : StoredInv s) (hd : s.dlen.toNat ≤ 64) :
    StoredInv { s with key := fill 64 s.data, klen := s.dlen, status := putBit s.status 4 true } where
  reserved := ⟨putBit_lt_32 _ 4 _ h.reserved.1, h.reserved.2⟩
  keyStore := by
    refine ⟨hd, fun i hi => ?_, fun hk => ?_⟩
    · have hlen : s.data.length ≤ i.val := by rw [data_length hd]; exact hi
      simp [fill, hlen]
    · exact absurd ((getLsbD_putBit_four s.status true).symm.trans hk) (by decide)
  ranges := h.ranges
  codes := h.codes

/-- KEYCLR's writes: no key, and every result register zero (R141). -/
theorem StoredInv.clearKey {s : State} (h : StoredInv s) : StoredInv { s with
    key := zeros 64, klen := 0, status := putBit s.status 4 false, mac := zeros 20, offs := 0, bin := 0, coden := 0
    code0 := zeros 6, code1 := zeros 6, code2 := zeros 6 } where
  reserved := by
    obtain ⟨hstatus, hctrl, -⟩ := h.reserved
    exact ⟨putBit_lt_32 _ 4 _ hstatus, hctrl, (by decide : (0 : Byte).toNat < 16)⟩
  keyStore :=
    ⟨(by decide : (0 : Byte).toNat ≤ 64), fun i _ => Vector.getElem_replicate i.isLt, fun _ => ⟨rfl, rfl⟩⟩
  ranges := (by decide : (0 : Word32).toNat < 2 ^ 31 ∧ (0 : Word32).toNat ≤ 999999)
  codes := ⟨.inl rfl, .inl rfl, .inl rfl⟩

theorem withKey_eq_ok {s w : State} {k : CmdResult} {hit : Bool} (h : withKey s k = .ok w hit) : k = .ok w hit := by
  rcases withKey_cases s k with ⟨-, hk⟩ | ⟨-, hk⟩ <;> rw [hk] at h
  · exact h
  · cases h

theorem withData_eq_ok {s w : State} {k : CmdResult} {hit : Bool} (h : withData s k = .ok w hit) :
    s.dlen.toNat ≤ 64 ∧ k = .ok w hit := by
  rcases withData_cases s k with ⟨hd, hk⟩ | ⟨-, hk⟩ <;> rw [hk] at h
  · exact ⟨hd, h⟩
  · cases h

/-- The writes of every command keep items 1, 5, 6 and 7. -/
theorem Inv.stored_of_result {s : State} (h : Inv s) {i : Instr} {w : State} {hit : Bool}
    (hr : resultOf i s = .ok w hit) : StoredInv w := by
  rcases resultOf_cases i s with ⟨e, he⟩ | ⟨w', hit', hw', hf, herr, -, hst⟩
  · rw [he] at hr
    cases hr
  rw [hw'] at hr
  cases hr
  cases i with
  | keyld =>
    obtain ⟨hd, hk⟩ := withData_eq_ok hw'
    cases hk
    exact h.stored.loadKey hd
  | keyclr =>
    cases hw'
    exact h.stored.clearKey
  | trunc =>
    cases hw'
    exact h.stored.putTruncation s.mac
  | hotp =>
    cases withKey_eq_ok hw'
    exact (h.of_operands ..).stored.putTruncation _
  | codes =>
    cases withKey_eq_ok hw'
    obtain ⟨-, hcode1, -⟩ := h.codes
    apply StoredInv.putTruncation
    exact ⟨h.reserved, h.keyStore, h.ranges, codeRegOk_digits _, hcode1, codeRegOk_digits _⟩
  | _ =>
    replace hst : w.status = s.status := hst
    simp only [ChangesOnlyResults] at hf
    rw [hf, hst, herr]
    exact (h.of_operands ..).stored

/-- The completion of the running command satisfies R44 (30_encoding.md R93). -/
theorem Inv.complete {i : Instr} {s : State} (h : Inv s) (hd : decode s.opc = .ok i) :
    Inv (s.complete (resultOf i s)) := by
  rcases resultOf_cases i s with ⟨e, he⟩ | ⟨w, hit, hw, -, -, hhit, -⟩
  · rw [he]
    exact h.stored.errorEntry e
  · have hopc : w.opc = s.opc := by
      have hframe := (complete_frame i s).1
      rwa [hw] at hframe
    rw [hw]
    refine (h.stored_of_result hw).succeed fun htrue => ?_
    have hi : i = .valid := by
      by_contra hne
      rw [hhit hne] at htrue
      cases htrue
    rw [hopc, ← encode_of_decode hd, hi]

/-! ### The host's accesses -/

section Acknowledge
variable (s : State) (v : Byte)

theorem ack_busy : State.busy { s with status := ackStatus s.status v } = s.busy :=
  getLsbD_ackStatus s.status v 0 (by decide)

theorem ack_done : State.done { s with status := ackStatus s.status v } = (s.done && !v.getLsbD 1) :=
  getLsbD_ackStatus s.status v 1 (by decide)

theorem ack_err : State.err { s with status := ackStatus s.status v } = s.err :=
  getLsbD_ackStatus s.status v 2 (by decide)

theorem ack_matched : State.matched { s with status := ackStatus s.status v } = s.matched :=
  getLsbD_ackStatus s.status v 3 (by decide)

theorem ack_keyv : State.keyv { s with status := ackStatus s.status v } = s.keyv :=
  getLsbD_ackStatus s.status v 4 (by decide)

end Acknowledge

/-- An acknowledge keeps R44: it clears DONE at most (10_state.md R25). -/
theorem Inv.ack {s : State} (h : Inv s) (v : Byte) : Inv { s with status := ackStatus s.status v } where
  reserved := ⟨ackStatus_lt_32 v h.reserved.1, h.reserved.2⟩
  busyClear hb := by
    obtain ⟨hdone, hclear⟩ := h.busyClear (by rwa [ack_busy] at hb)
    rw [ack_done, ack_err, ack_matched, hdone]
    exact ⟨rfl, hclear⟩
  errIff := by rw [ack_err]; exact h.errIff
  matchValid := by rw [ack_matched, ack_err]; exact h.matchValid
  keyStore := by rw [ack_keyv]; exact h.keyStore
  ranges := h.ranges
  codes := h.codes

/-- The write of an item keeps R44 (20_memory.md R65). -/
theorem Inv.itemWrite {s : State} (h : Inv s) (it : Item) (i : Nat) (v : Byte) : Inv (itemWrite s it i v) := by
  cases it with
  | cmd => exact h.stored.start v
  | status => exact h.ack v
  | ctrl =>
    obtain ⟨hstatus, hctrl, hoffs⟩ := h.reserved
    exact ⟨⟨hstatus, ctrlWrite_lt_2 _ v hctrl, hoffs⟩, h.busyClear, h.errIff, h.matchValid, h.keyStore, h.ranges, h.codes⟩
  | errcode | klen | bin | coden | code0 | code1 | code2 | offs => exact h
  | _ => exact h.of_operands ..

/-- A host write keeps R44, in both phases. -/
theorem Inv.busWrite {s : State} (h : Inv s) (a : Addr) (v : Byte) : Inv (busWrite s a v) := by
  rcases busWrite_cases s a v with hw | ⟨it, i, -, -, hw⟩ <;> rw [hw]
  · exact h
  · exact h.itemWrite it i v

/-- A clock cycle keeps R44. -/
theorem Inv.busCycle {s : State} (h : Inv s) (p : Pins) : Inv (busCycle s p) := by
  have hcore : Inv (cycleCore s p) := by
    unfold cycleCore
    split
    · exact inv_reset.of_operands ..
    · split
      · exact h.busWrite _ _
      · exact h
  exact hcore.of_operands ..

/-! ### The step -/

/-- The engine's turn keeps R44. -/
theorem Inv.engineTurn {s t : State} (h : Inv s) (ht : engineTurn s = .next t) : Inv t := by
  rcases engineTurn_cases ht with ⟨-, rfl⟩ | ⟨-, i, hd, rfl⟩ | ⟨-, -, rfl⟩
  · exact h
  · exact h.complete hd
  · exact h.stored.errorEntry .illcmd

/-- One step keeps R44, from every state that satisfies it. -/
theorem Inv.step {s t : State} (h : Inv s) (ht : step s = .next t) : Inv t := by
  have hq (rest : List Event) : Inv { s with queue := rest } := h.of_operands ..
  rcases step_cases ht with ⟨-, he⟩ | ⟨rest, -, he⟩ | ⟨p, rest, -, rfl⟩
  · exact h.engineTurn he
  · exact (hq rest).engineTurn he
  · exact (hq rest).busCycle p

/-- Settles O9, by induction on the run: reset satisfies R44, and every step keeps it. -/
theorem reachableStatesSatisfyInvariants : Obligations.ReachableStatesSatisfyInvariants := by
  intro s hs
  induction hs with
  | reset turns => exact inv_reset.of_operands ..
  | step s t _ ht ih => exact ih.step ht

end Sys2Proof.Machine
end

section
/-! SUPPORT. What the host reads: of an idle core the bytes of a number most significant first and the elements of a
sequence in order, of a busy one `CMD` and `STATUS` (20_memory.md R63, R64, R66, R68). -/

namespace Sys2Proof.Machine

/-- The base-256 digits of a number, most significant first, have that number as their big-endian value. -/
theorem be_digits {n v : Nat} {f : Nat → Byte} (hv : v < 256 ^ n)
    (hf : ∀ i, i < n → f i = BitVec.ofNat 8 (v / 256 ^ (n - 1 - i))) : be ((List.range n).map f) = v := by
  have hmap : (List.range n).map f = bytesBE v n := by
    rw [bytesBE_eq_div]
    exact List.map_congr_left fun i hi => hf i (List.mem_range.1 hi)
  rw [hmap, be_bytesBE, Nat.mod_eq_of_lt hv]

section IdleReads
variable {s : State} (hb : s.busy = false) (it : Item)
include hb

/-- An idle read of a 64-bit register shows a base-256 digit of its value. -/
theorem busRead_digit_eight {v : Word64} (hread : itemByte s it = regByte 8 v) (hsize : it.size = 8) {i : Nat}
    (hi : i < 8) : busRead s (BitVec.ofNat 9 (it.base + i)) = BitVec.ofNat 8 (v.toNat / 256 ^ (7 - i)) := by
  rw [busRead_item hb it i _ rfl (hsize ▸ hi), hread, regByte_eight]

/-- An idle read of a 32-bit register shows a base-256 digit of its value. -/
theorem busRead_digit_four {v : Word32} (hread : itemByte s it = regByte 4 v) (hsize : it.size = 4) {i : Nat}
    (hi : i < 4) : busRead s (BitVec.ofNat 9 (it.base + i)) = BitVec.ofNat 8 (v.toNat / 256 ^ (3 - i)) := by
  rw [busRead_item hb it i _ rfl (hsize ▸ hi), hread, regByte_four]

/-- An idle read of a byte sequence shows the addressed element. -/
theorem busRead_element {n : Nat} {b : Vector Byte n} (hread : itemByte s it = fun i => b.getD i 0)
    (hsize : it.size = n) {i : Nat} (hi : i < n) : busRead s (BitVec.ofNat 9 (it.base + i)) = b[i] := by
  rw [busRead_item hb it i _ rfl (hsize ▸ hi), hread]
  exact vector_getD_lt b i 0 hi

end IdleReads

/-! ### Reads in both phases -/

/-- While busy only `CMD` and `STATUS` show their value (R66). -/
theorem busRead_busy_other {s : State} (hb : s.busy = true) {a : Addr} (hcmd : a ≠ 0x000) (hstatus : a ≠ 0x001) :
    busRead s a = 0x00 := by
  rw [busRead, if_pos hb, if_neg hcmd, if_neg hstatus]

/-- A read of `STATUS` shows it without its reserved bits, idle or busy (R64, R66). -/
theorem busRead_status (s : State) : busRead s 0x001 = statusRead s.status := by
  cases hb : s.busy with
  | true => simp [busRead, hb]
  | false => rw [busRead_idle hb, cellAt_of_locate locate_status, itemByte]

/-- An unmapped address reads as 0x00, idle or busy (R63). -/
theorem busRead_unmapped (s : State) {a : Addr} (ha : locate a = none) : busRead s a = 0x00 := by
  cases hb : s.busy with
  | true =>
    have hne {c : Addr} (hc : locate c ≠ none) : a ≠ c := fun h => hc (h ▸ ha)
    exact busRead_busy_other hb (hne (by decide)) (hne (by decide))
  | false => rw [busRead_idle hb, cellAt_of_unmapped ha]

/-- A cycle that reads changes the queue and the `rdata` record alone (R64). -/
theorem step_of_read {s : State} {a : Addr} {w : Byte} {rest : List Event}
    (hq : s.queue = .cycle ⟨false, true, false, a, w⟩ :: rest) :
    step s = .next { s with queue := rest, rdata := busRead s a } :=
  step_of_cycle hq

/-! ### The obligations -/

/-- Settles O13: R63's list is the complement of the address map. -/
theorem unmappedAddressesAreInert : Obligations.UnmappedAddressesAreInert := by
  intro s a v ha
  have hl := (unmapped_iff a).1 ha
  exact ⟨busRead_unmapped s hl, busWrite_unmapped hl v⟩

/-- Settles O15: a busy core ignores writes, and R44 fixes every bit of its `STATUS` but KEYV. -/
theorem busyAccessesAreIgnored : Obligations.BusyAccessesAreIgnored := by
  intro s hb
  refine ⟨busWrite_busy hb, busRead_status s, fun hinv => ?_, busRead_cmd s, fun a => busRead_busy_other hb⟩
  obtain ⟨hdone, herr, hmatched, -⟩ := hinv.busyClear hb
  rw [busRead_status]
  exact statusRead_of_busy s.status hinv.reserved.1 hb hdone herr hmatched

/-- Settles O11: every address class by the base and size the address map gives its item. -/
theorem idleReadShowsTheAddressedItem : Obligations.IdleReadShowsTheAddressedItem := by
  refine ⟨fun s hb => ?_, fun s a w rest hq => step_of_read hq⟩
  have byteAt (it : Item) (hsize : 0 < it.size) : busRead s (BitVec.ofNat 9 it.base) = itemByte s it 0 :=
    busRead_item hb it 0 _ rfl hsize
  exact ⟨busRead_cmd s, busRead_status s, byteAt .errcode (by decide), byteAt .ctrl (by decide),
    byteAt .dlen (by decide), byteAt .tlen (by decide), byteAt .clen (by decide), byteAt .klen (by decide), byteAt .offs (by decide),
    fun _ => busRead_digit_eight hb .time rfl rfl, fun _ => busRead_digit_eight hb .ctr rfl rfl,
    fun _ => busRead_digit_four hb .bin rfl rfl, fun _ => busRead_digit_four hb .coden rfl rfl,
    fun _ => busRead_element hb .cand rfl rfl, fun _ => busRead_element hb .code0 rfl rfl,
    fun _ => busRead_element hb .code1 rfl rfl, fun _ => busRead_element hb .code2 rfl rfl,
    fun _ => busRead_element hb .mac rfl rfl, fun _ => busRead_element hb .dbuf rfl rfl,
    fun _ => busRead_element hb .tbuf rfl rfl, fun a ha => busRead_unmapped s ((unmapped_iff a).1 ha)⟩

/-- Settles O12 from O11: digits of a number have its value, elements read in order are the sequence. -/
theorem multiByteItemsAreLaidOutByAddress : Obligations.MultiByteItemsAreLaidOutByAddress := by
  intro s hb
  obtain ⟨-, -, -, -, -, -, -, -, -, htime, hctr, hbin, hcoden, hcand, hcode0, hcode1, hcode2, hmac, hdbuf, htbuf, -⟩ :=
    idleReadShowsTheAddressedItem.1 s hb
  exact ⟨be_digits s.time.isLt htime, be_digits s.ctr.isLt hctr, be_digits s.bin.isLt hbin,
    be_digits s.coden.isLt hcoden,
    map_range_eq_toList _ _ hcand, map_range_eq_toList _ _ hcode0, map_range_eq_toList _ _ hcode1,
    map_range_eq_toList _ _ hcode2, map_range_eq_toList _ _ hmac, map_range_eq_toList _ _ hdbuf,
    map_range_eq_toList _ _ htbuf⟩

end Sys2Proof.Machine
end

section
/-! SUPPORT. What a host write does to an idle core, address by address (20_memory.md R65). -/

namespace Sys2Proof.Machine

/-- The items of R65 that only store what is written: those of `PlainWritable`. -/
abbrev plainItems : List Item := [.dlen, .tlen, .clen, .time, .ctr, .cand, .mac, .dbuf, .tbuf]

/-- The items of R65 that ignore a write: those of `ReadOnly`. -/
abbrev readOnlyItems : List Item := [.errcode, .klen, .bin, .coden, .code0, .code1, .code2, .offs]

/-- Only the writes of `CMD` and `STATUS` change `STATUS`. -/
theorem itemWrite_status (s : State) {it : Item} (i : Nat) (v : Byte) (hcmd : it ≠ .cmd) (hstatus : it ≠ .status) :
    (itemWrite s it i v).status = s.status := by
  cases it with
  | cmd => exact absurd rfl hcmd
  | status => exact absurd rfl hstatus
  | _ => rfl

/-- Only the write of `CTRL` changes `CTRL`. -/
theorem itemWrite_ctrl (s : State) {it : Item} (i : Nat) (v : Byte) (h : it ≠ .ctrl) :
    (itemWrite s it i v).ctrl = s.ctrl := by
  cases it with
  | ctrl => exact absurd rfl h
  | _ => rfl

/-- A write to a read-only item is ignored. -/
theorem itemWrite_readOnly (s : State) {it : Item} (i : Nat) (v : Byte) (h : it ∈ readOnlyItems) :
    itemWrite s it i v = s := by
  cases it with
  | errcode | klen | bin | coden | code0 | code1 | code2 | offs => rfl
  | _ => exact absurd h (by decide)

/-- A write to a plain item stores the byte at its address and no other. -/
theorem cellAt_itemWrite (s : State) {a : Addr} {it : Item} {i : Nat} (v : Byte) (hp : it ∈ plainItems)
    (ha : locate a = some (it, i)) (b : Addr) : cellAt (itemWrite s it i v) b = if b = a then v else cellAt s b := by
  cases hlb : locate b with
  | none =>
    have hne : b ≠ a := by
      rintro rfl
      rw [hlb] at ha
      cases ha
    rw [cellAt_of_unmapped hlb, cellAt_of_unmapped hlb, if_neg hne]
  | some x =>
    obtain ⟨it', j⟩ := x
    have hsame : (it' = it ∧ j = i) ↔ b = a := by
      constructor
      · rintro ⟨rfl, rfl⟩
        exact locate_inj hlb ha
      · rintro rfl
        rw [hlb] at ha
        cases ha
        exact ⟨rfl, rfl⟩
    rw [cellAt_of_locate hlb, cellAt_of_locate hlb,
      itemByte_itemWrite s it it' i j v hp (locate_some a _ ha).2 (locate_some b _ hlb).2]
    simp only [hsame]

/-- A write to a read-only byte is ignored, idle or busy. -/
theorem busWrite_readOnly (s : State) {a : Addr} (v : Byte) (ha : ReadOnly a) : busWrite s a v = s := by
  obtain ⟨it, i, hl, hr⟩ := readOnly_locate a ha
  cases hb : s.busy with
  | true => exact busWrite_busy hb a v
  | false => rw [busWrite_idle hb hl, itemWrite_readOnly s i v hr]

section IdleWrites
variable {s : State} (hb : s.busy = false) (v : Byte)
include hb

/-- A write to `STATUS` clears DONE when bit 1 of the byte is set, and changes nothing else. -/
theorem busWrite_status : busWrite s 0x001 v = { s with status := ackStatus s.status v } :=
  busWrite_idle hb locate_status v

/-- A write to `CTRL` stores bit 0 of the byte as IEN, and changes nothing else. -/
theorem busWrite_ctrl : busWrite s 0x003 v = { s with ctrl := ctrlWrite s.ctrl v } := busWrite_idle hb locate_ctrl v

/-- A write to a byte of a plain item: every address afterwards, and what the addresses do not show. -/
theorem busWrite_plainWritable {a : Addr} (ha : PlainWritable a) :
    (∀ b, busRead (busWrite s a v) b = if b = a then v else busRead s b) ∧
    (busWrite s a v).opc = s.opc ∧ (busWrite s a v).status = s.status ∧ (busWrite s a v).ctrl = s.ctrl ∧
    (busWrite s a v).key = s.key ∧ (busWrite s a v).queue = s.queue ∧ (busWrite s a v).rdata = s.rdata := by
  obtain ⟨it, i, hl, hp⟩ := plainWritable_locate a ha
  have hne {c : Item} (hc : c ∉ plainItems) : it ≠ c := fun h => hc (h ▸ hp)
  have hcmd : it ≠ .cmd := hne (by decide)
  have hstatus := itemWrite_status s i v hcmd (hne (by decide))
  have hidle : (itemWrite s it i v).busy = false := by rwa [State.busy, hstatus]
  rw [busWrite_idle hb hl]
  refine ⟨fun b => ?_, itemWrite_opc s i v hcmd, hstatus, itemWrite_ctrl s i v (hne (by decide)),
    itemWrite_key s it i v, itemWrite_queue s it i v, itemWrite_rdata s it i v⟩
  rw [busRead_idle hidle, busRead_idle hb, cellAt_itemWrite s v hp hl b]

end IdleWrites

/-- Settles O14, address class by address class: flag by flag for `STATUS` and `CTRL`, through the address map for the
others. -/
theorem idleWriteEffects : Obligations.IdleWriteEffects := by
  intro s v hb
  refine ⟨busWrite_idle hb locate_cmd v, ?_, ?_, fun a ha => ?_, fun a ha => ?_⟩
  · rw [busWrite_status hb]
    refine ⟨rfl, fun j hj => (getLsbD_ackStatus s.status v j hj).trans ?_⟩
    by_cases h1 : j = 1
    · subst h1
      cases v.getLsbD 1 <;> simp
    · simp [h1]
  · rw [busWrite_ctrl hb]
    exact ⟨rfl, fun j hj => getLsbD_putBit s.ctrl 0 j _ hj⟩
  · obtain ⟨hread, hframe⟩ := busWrite_plainWritable hb v ha
    exact ⟨(hread a).trans (if_pos rfl), fun b hne => (hread b).trans (if_neg hne), hframe⟩
  · rcases ha with hro | hun
    · exact busWrite_readOnly s v hro
    · exact busWrite_unmapped ((unmapped_iff a).1 hun) v

end Sys2Proof.Machine
end

section
/-! SUPPORT. The start of a command (30_encoding.md R91), and the byte that is no command (R95). -/

namespace Sys2Proof.Machine

/-- A write to `CMD` of an idle core is the start (R91). -/
theorem busWrite_cmd {s : State} (hb : s.busy = false) (v : Byte) : busWrite s 0x000 v = s.start v :=
  busWrite_idle hb locate_cmd v

/-- A start keeps the reserved bits of `STATUS`. -/
theorem start_reserved (s : State) (v : Byte) (j : Nat) (h5 : 5 ≤ j) (h8 : j < 8) :
    (s.start v).status.getLsbD j = s.status.getLsbD j := by
  rw [State.start_status, getLsbD_startStatus _ _ h8, if_neg (by omega), if_neg (by omega)]

/-- Settles O17: an accepted write to `CMD` is the start, flag by flag; a busy core ignores it. -/
theorem startLatchesAndClears : Obligations.StartLatchesAndClears := by
  refine fun s v => ⟨fun hb => ?_, fun hb => busWrite_busy hb 0x000 v⟩
  rw [busWrite_cmd hb]
  exact ⟨State.start_opc s v, State.start_busy s v, State.start_done s v, State.start_err s v,
    State.start_matched s v, State.start_errcode s v, State.start_keyv s v, start_reserved s v, rfl⟩

/-- The engine's turn on a running byte that is no command is the error entry of ILLCMD (R95). -/
theorem engineTurn_of_illegal {s : State} {e : DecodeError} (hb : s.busy = true) (hd : decode s.opc = .error e) :
    engineTurn s = .next (s.errorEntry .illcmd) := by
  rw [engineTurn, if_pos hb, engineStep, hd]
  exact execIllegal_eq s

/-- What completes a started command completes it for the state before the start: the reserved bits are the same. -/
theorem Completed.of_start {s t : State} {v code : Byte} {hit err keyv : Bool}
    (h : Completed (s.start v) t hit err code keyv) : Completed s t hit err code keyv :=
  { h with reserved := fun j h5 h8 => (h.reserved j h5 h8).trans (start_reserved s v j h5 h8) }

/-- Settles O25: the started byte does not decode, so the engine's turn is the error entry of ILLCMD. -/
theorem illegalByteCompletesWithIllcmd : Obligations.IllegalByteCompletesWithIllcmd := by
  intro s v hb hv
  rw [busWrite_cmd hb]
  have hturn : engineTurn (s.start v) = .next ((s.start v).errorEntry .illcmd) :=
    engineTurn_of_illegal (State.start_busy s v) (decode_illegal v hv)
  have hdone : Completed s ((s.start v).errorEntry .illcmd) false true 0x01 s.keyv := by
    rw [← State.start_keyv s v]
    exact (completed_error (s.start v) .illcmd).of_start
  exact ⟨State.start_opc s v, State.start_busy s v, _, hturn, hdone, rfl⟩

end Sys2Proof.Machine
end

section
/-! SUPPORT. What a command reads, writes and can report (30_encoding.md R92): in two states that agree on its operands,
`Exec` has one outcome. -/

namespace Sys2Proof.Machine

/-- Two outcomes of a command agree: the same error, or the same match and the same results. -/
inductive SameOutcome (i : Instr) : CmdResult → CmdResult → Prop where
  | ok {w x : State} {hit : Bool} (h : SameResults i w x) : SameOutcome i (.ok w hit) (.ok x hit)
  | error (e : ErrorCode) : SameOutcome i (.error e) (.error e)

section Operands
variable {s u : State}

theorem data_congr (hdlen : s.dlen = u.dlen) (hdbuf : ∀ j, j < s.dlen.toNat → s.dbuf.getD j 0 = u.dbuf.getD j 0) :
    s.data = u.data := by
  rw [State.data, State.data, take_congr _ _ _ hdbuf, hdlen]

theorem text_congr (htlen : s.tlen = u.tlen) (htbuf : ∀ j, j < s.tlen.toNat → s.tbuf.getD j 0 = u.tbuf.getD j 0) :
    s.text = u.text := by
  rw [State.text, State.text, take_congr _ _ _ htbuf, htlen]

theorem secret_congr (hklen : s.klen = u.klen) (hkey : s.key = u.key) : s.secret = u.secret := by
  rw [State.secret, State.secret, hklen, hkey]

theorem candidate_congr (hcand : ∀ j, j < 6 → s.cand.getD j 0 = u.cand.getD j 0) : s.candidate = u.candidate :=
  take_congr _ _ _ hcand

theorem wellFormedCandidate_congr (hclen : s.clen = u.clen) (hcand : s.candidate = u.candidate) :
    s.wellFormedCandidate = u.wellFormedCandidate := by
  rw [State.wellFormedCandidate, State.wellFormedCandidate, hclen, hcand]

theorem candidateMatches_congr (hsecret : s.secret = u.secret) (htime : s.time = u.time)
    (hcand : s.candidate = u.candidate) : s.candidateMatches = u.candidateMatches := by
  rw [State.candidateMatches, State.candidateMatches, hsecret, htime, hcand]

end Operands

section Outcomes
variable {i : Instr} {s u : State} {k l : CmdResult}

/-- The key check has one answer where KEYV agrees. -/
theorem SameOutcome.withKey (hkeyv : s.keyv = u.keyv) (h : SameOutcome i k l) :
    SameOutcome i (withKey s k) (withKey u l) := by
  rw [Machine.withKey, Machine.withKey, hkeyv]
  split
  · exact h
  · exact .error .nokey

/-- The length check has one answer where `DLEN` agrees. -/
theorem SameOutcome.withData (hdlen : s.dlen = u.dlen) (h : SameOutcome i k l) :
    SameOutcome i (withData s k) (withData u l) := by
  rw [Machine.withData, Machine.withData, hdlen]
  split
  · exact .error .length
  · exact h

/-- The status update of a completion keeps the agreement of the results. -/
theorem SameResults.succeed {w x : State} (hit : Bool) (h : SameResults i w x) :
    SameResults i (w.succeed hit) (x.succeed hit) := by
  cases i with
  | valid => trivial
  | keyld | keyclr => simpa [SameResults] using h
  | _ => exact h

/-- Agreeing outcomes complete with the same `ERRCODE` and MATCH, and on success with the same results. -/
theorem SameOutcome.complete (h : SameOutcome i k l) :
    (s.complete k).errcode = (u.complete l).errcode ∧ (s.complete k).matched = (u.complete l).matched ∧
    ((s.complete k).errcode = 0x00 → SameResults i (s.complete k) (u.complete l)) := by
  cases h with
  | ok hres => simpa using hres.succeed _
  | error e => exact ⟨rfl, by simp, fun h => absurd h (errorCode_bounds e).1⟩

end Outcomes

/-- Two states whose `STATUS` had bit 4 written alike agree on KEYV. -/
theorem keyv_congr_of_putBit {w x : State} {st st' : Byte} (b : Bool) (hw : w.status = putBit st 4 b)
    (hx : x.status = putBit st' 4 b) : w.keyv = x.keyv := by
  rw [State.keyv, State.keyv, hw, hx, getLsbD_putBit_four, getLsbD_putBit_four]

/-- The outcome of every command depends on its operands alone. -/
theorem resultOf_congr {i : Instr} {s u : State} (h : SameOperands i s u) :
    SameOutcome i (resultOf i s) (resultOf i u) := by
  cases i with
  | keyclr =>
    exact .ok ⟨⟨rfl, rfl, keyv_congr_of_putBit false rfl rfl⟩, rfl, ⟨rfl, rfl, rfl, rfl⟩, rfl, rfl⟩
  | trunc =>
    rw [resultOf, resultOf, cmdTrunc, cmdTrunc, show s.mac = u.mac from h]
    exact .ok ⟨rfl, rfl, rfl, rfl⟩
  | tdiv => exact .ok (congrArg timeCounter h)
  | b32enc =>
    obtain ⟨hdlen, hdbuf⟩ := h
    rw [resultOf, resultOf, cmdB32enc, cmdB32enc, data_congr hdlen hdbuf]
    exact .withData hdlen (.ok ⟨rfl, rfl⟩)
  | b32encp =>
    obtain ⟨hdlen, hdbuf⟩ := h
    rw [resultOf, resultOf, cmdB32encp, cmdB32encp, data_congr hdlen hdbuf]
    exact .withData hdlen (.ok ⟨rfl, rfl⟩)
  | keyld =>
    obtain ⟨hdlen, hdbuf⟩ := h
    rw [resultOf, resultOf, cmdKeyld, cmdKeyld, data_congr hdlen hdbuf]
    exact .withData hdlen (.ok ⟨rfl, hdlen, keyv_congr_of_putBit true rfl rfl⟩)
  | sha1 =>
    obtain ⟨hdlen, hdbuf⟩ := h
    rw [resultOf, resultOf, cmdSha1, cmdSha1, data_congr hdlen hdbuf]
    exact .withData hdlen (.ok rfl)
  | hmac =>
    obtain ⟨⟨hkeyv, hklen, hkey⟩, hdlen, hdbuf⟩ := h
    rw [resultOf, resultOf, cmdHmac, cmdHmac, secret_congr hklen hkey, data_congr hdlen hdbuf]
    exact .withKey hkeyv (.withData hdlen (.ok rfl))
  | hotp =>
    obtain ⟨⟨hkeyv, hklen, hkey⟩, hctr⟩ := h
    rw [resultOf, resultOf, cmdHotp, cmdHotp, secret_congr hklen hkey, hctr]
    exact .withKey hkeyv (.ok ⟨rfl, rfl, rfl, rfl, rfl⟩)
  | codes =>
    obtain ⟨⟨hkeyv, hklen, hkey⟩, htime⟩ := h
    rw [resultOf, resultOf, cmdCodes, cmdCodes, secret_congr hklen hkey, htime]
    exact .withKey hkeyv (.ok ⟨rfl, rfl, ⟨rfl, rfl, rfl, rfl⟩, rfl, rfl⟩)
  | valid =>
    obtain ⟨⟨hkeyv, hklen, hkey⟩, htime, hclen, hcand⟩ := h
    have hcand := candidate_congr hcand
    rw [resultOf, resultOf, cmdValid, cmdValid, wellFormedCandidate_congr hclen hcand,
      candidateMatches_congr (secret_congr hklen hkey) htime hcand]
    refine .withKey hkeyv ?_
    split
    · exact .ok trivial
    · exact .error .malformed
  | b32dec =>
    obtain ⟨htlen, htbuf⟩ := h
    rw [resultOf, resultOf, cmdB32dec, cmdB32dec, text_congr htlen htbuf, htlen]
    split
    · exact .error .length
    · cases b32dec u.text with
      | none => exact .error .format
      | some b =>
        dsimp only
        split
        · exact .error .length
        · exact .ok ⟨rfl, rfl⟩

/-- Settles O29: the frame and the error kinds from the inversion of `Exec`, the operands from its congruence. -/
theorem commandsReadAndWriteWhatR92Lists : Obligations.CommandsReadAndWriteWhatR92Lists := by
  intro i s u t v ht hv
  obtain rfl := exec_eq_next ht
  obtain rfl := exec_eq_next hv
  refine ⟨complete_changesOnlyResults i s, fun hsame => (resultOf_congr hsame).complete, ?_⟩
  rcases resultOf_cases i s with ⟨e, he⟩ | ⟨w, hit, hw, -, -, hhit, hstatus⟩
  · have herr := error_code_of_command i s e he
    rw [he]
    refine ⟨fun _ => rfl, fun _ => State.errorEntry_keyv s e, fun _ => State.errorEntry_matched s e, .inr ?_⟩
    cases i with
    | keyclr | trunc | tdiv => exact herr
    | b32dec | hmac | valid => exact herr.imp (congrArg ErrorCode.code) (congrArg ErrorCode.code)
    | _ => exact congrArg ErrorCode.code herr
  · rw [hw]
    refine ⟨fun h => absurd rfl h, fun h => ?_, fun h => (State.succeed_matched w hit).trans (hhit h), .inl rfl⟩
    obtain ⟨hkeyld, hkeyclr⟩ := h.resolve_left fun h => h rfl
    refine (State.succeed_keyv w hit).trans (keyv_of_status ?_)
    cases i with
    | keyld => exact absurd rfl hkeyld
    | keyclr => exact absurd rfl hkeyclr
    | _ => exact hstatus

end Sys2Proof.Machine
end

section
/-! SUPPORT. Base32 is exact (40_base32.md R117): the decoder answers `b` on the two encodings of `b` and on no other
text. -/

namespace Sys2Proof.Machine

/-! ### The data symbols of an encoding -/

/-- The data symbols `b32enc` writes for `b`, as numbers (R111). -/
def symbolsOf (b : List Byte) : List Nat :=
  groupsOf (be b <<< (5 * encodedLength b.length - 8 * b.length)) (encodedLength b.length)

theorem b32enc_eq_map_symbolsOf (b : List Byte) : b32enc b = (symbolsOf b).map symbolOf := b32enc_eq b

@[simp] theorem symbolsOf_length (b : List Byte) : (symbolsOf b).length = encodedLength b.length :=
  groupsOf_length _ _

theorem symbolsOf_lt {b : List Byte} : ∀ v ∈ symbolsOf b, v < 32 := fun _ => groupsOf_lt

/-- The bits of the last symbol beyond the data are fewer than a byte: the decoder's left-over count (R115). -/
theorem encodedLength_leftover (n : Nat) : 5 * encodedLength n - 8 * n = 5 * encodedLength n % 8 := by
  unfold encodedLength; omega

/-- The decoder finds the number of bytes again. -/
theorem encodedLength_bytes (n : Nat) : 5 * encodedLength n / 8 = n := by
  unfold encodedLength; omega

/-- A length the decoder accepts is the length of an encoding (R116). -/
theorem encodedLength_of_shapeOk {d p : Nat} (h : shapeOk d p = true) : encodedLength (5 * d / 8) = d := by
  rw [shapeOk_iff] at h
  unfold encodedLength; omega

/-- The symbols of an encoding are the bytes, with zeros for the left-over bits. -/
theorem groupsValue_symbolsOf (b : List Byte) :
    groupsValue (symbolsOf b) = be b * 2 ^ (5 * encodedLength b.length % 8) := by
  rw [symbolsOf, groupsValue_groupsOf, Nat.mod_eq_of_lt (be_shift_lt b), encodedLength_leftover, Nat.shiftLeft_eq]

/-- Symbols whose left-over bits are zero are those of the bytes they decode to. -/
theorem symbolsOf_decoded {vs : List Nat} {p : Nat} (hlt : ∀ v ∈ vs, v < 32) (hshape : shapeOk vs.length p = true)
    (hzero : groupsValue vs % 2 ^ (5 * vs.length % 8) = 0) :
    symbolsOf (bytesBE (groupsValue vs >>> (5 * vs.length % 8)) (5 * vs.length / 8)) = vs := by
  have hfits : groupsValue vs / 2 ^ (5 * vs.length % 8) < 256 ^ (5 * vs.length / 8) := by
    rw [Nat.div_lt_iff_lt_mul (by positivity)]
    calc groupsValue vs < 32 ^ vs.length := groupsValue_lt hlt
      _ = 2 ^ (8 * (5 * vs.length / 8) + 5 * vs.length % 8) := by
        rw [Nat.div_add_mod, pow_mul]; rfl
      _ = 256 ^ (5 * vs.length / 8) * 2 ^ (5 * vs.length % 8) := by
        rw [pow_add, pow_mul]; rfl
  rw [symbolsOf, bytesBE_length, encodedLength_of_shapeOk hshape, be_bytesBE, Nat.shiftRight_eq_div_pow,
    Nat.mod_eq_of_lt hfits, show 5 * vs.length - 8 * (5 * vs.length / 8) = 5 * vs.length % 8 by omega,
    Nat.shiftLeft_eq, Nat.div_mul_cancel (Nat.dvd_of_mod_eq_zero hzero), groupsOf_groupsValue hlt]

/-! ### What decodes to a byte sequence -/

/-- The lengths of encodings, modulo 8 (R116). -/
theorem encodedLength_mod_eight (n : Nat) :
    encodedLength n % 8 = 0 ∨ encodedLength n % 8 = 2 ∨ encodedLength n % 8 = 4 ∨ encodedLength n % 8 = 5 ∨
      encodedLength n % 8 = 7 := by
  unfold encodedLength; omega

/-- After an encoding the decoder accepts no pad, or R113's amount of padding. -/
theorem shapeOk_encodedLength (n p : Nat) :
    shapeOk (encodedLength n) p = true ↔ p = 0 ∨ p = (8 - encodedLength n % 8) % 8 := by
  rw [shapeOk_iff]
  rcases encodedLength_mod_eight n with h | h | h | h | h <;> simp [h]

/-- The decoder answers `b` on the encoding of `b`, with any padding it accepts. -/
theorem b32dec_b32enc_append {b : List Byte} {p : Nat} (h : shapeOk (encodedLength b.length) p = true) :
    b32dec (b32enc b ++ List.replicate p padChar) = some b := by
  rw [b32enc_eq_map_symbolsOf, b32dec_symbols p symbolsOf_lt, symbolsOf_length, groupsValue_symbolsOf,
    if_pos ⟨h, Nat.mul_mod_left _ _⟩, Nat.shiftRight_eq_div_pow, Nat.mul_div_cancel _ (by positivity),
    encodedLength_bytes, bytesBE_be]

/-- The texts that decode to `b` are its two encodings. -/
theorem b32dec_eq_some_iff (t b : List Byte) : b32dec t = some b ↔ t = b32enc b ∨ t = b32encp b := by
  have hlen : (b32enc b).length = encodedLength b.length := b32enc_length b
  have hpad := shapeOk_encodedLength b.length
  constructor
  · intro h
    obtain ⟨vs, p, hlt, rfl, hshape, hzero, rfl⟩ := b32dec_some h
    have hsym := symbolsOf_decoded hlt hshape hzero
    rw [← hsym, symbolsOf_length, hpad] at hshape
    rw [b32encp_eq, hlen, b32enc_eq_map_symbolsOf, hsym]
    rcases hshape with rfl | rfl
    · exact .inl (List.append_nil _)
    · exact .inr rfl
  · rintro (rfl | rfl)
    · simpa using b32dec_b32enc_append ((hpad 0).2 (.inl rfl))
    · rw [b32encp_eq, hlen]
      exact b32dec_b32enc_append ((hpad _).2 (.inr rfl))

/-! ### The last character tells the two encodings apart -/

theorem mem_alphabet_of_mem_b32enc {b : List Byte} {c : Byte} (h : c ∈ b32enc b) : c ∈ alphabet := by
  rw [b32enc_eq_map_symbolsOf] at h
  obtain ⟨v, hv, rfl⟩ := List.mem_map.1 h
  exact symbolOf_mem_alphabet v (symbolsOf_lt v hv)

theorem padChar_not_mem_alphabet : padChar ∉ alphabet := by decide

/-- An unpadded encoding, the empty one too, does not end in a pad. -/
theorem b32enc_getLastD_ne_pad (b : List Byte) : (b32enc b).getLastD 0 ≠ padChar := by
  intro h
  rcases List.eq_nil_or_concat' (b32enc b) with hnil | ⟨u, c, hc⟩
  · rw [hnil] at h
    exact absurd h (by decide)
  · rw [hc, List.getLastD_concat] at h
    exact padChar_not_mem_alphabet (mem_alphabet_of_mem_b32enc (b := b) (by simp [hc, h]))

/-- A padded encoding that does not end in a pad has none. -/
theorem b32encp_eq_b32enc {b : List Byte} (h : (b32encp b).getLastD 0 ≠ padChar) : b32encp b = b32enc b := by
  rw [b32encp_eq] at h ⊢
  cases hp : (8 - (b32enc b).length % 8) % 8 with
  | zero => exact List.append_nil _
  | succ p =>
    rw [hp, List.replicate_succ', ← List.append_assoc, List.getLastD_concat] at h
    exact absurd rfl h

/-- The encoders undo the decoder, each on the texts that end as its own do (R117). -/
theorem encode_of_b32dec {t b : List Byte} (h : b32dec t = some b) :
    (t.getLastD 0 ≠ padChar → b32enc b = t) ∧ (t.getLastD 0 = padChar → b32encp b = t) := by
  rcases (b32dec_eq_some_iff t b).1 h with rfl | rfl
  · exact ⟨fun _ => rfl, fun hlast => absurd hlast (b32enc_getLastD_ne_pad b)⟩
  · exact ⟨fun hlast => (b32encp_eq_b32enc hlast).symm, fun _ => rfl⟩

/-- Settles O36: the texts that decode to `b` are its two encodings, and their last character tells them apart. -/
theorem base32CodeIsExact : Obligations.Base32CodeIsExact := by
  refine ⟨fun b => ⟨?_, ?_⟩, fun t b h => encode_of_b32dec h, fun t t' b hlast hlast' h h' => ?_,
    fun b c => mem_alphabet_of_mem_b32enc⟩
  · exact (b32dec_eq_some_iff _ b).2 (.inl rfl)
  · exact (b32dec_eq_some_iff _ b).2 (.inr rfl)
  · calc t = b32enc b := ((encode_of_b32dec h).1 hlast).symm
      _ = t' := (encode_of_b32dec h').1 hlast'

end Sys2Proof.Machine
end

section
/-! SUPPORT. The key store (41_key.md): what KEYCLR leaves (R141), and what changes the secret (R142). -/

namespace Sys2Proof.Machine

/-! ### KEYCLR -/

/-- The status of a completion without error whose writes set KEYV, flag by flag. -/
theorem completed_of_putBit {s w : State} {b : Bool} (h : w.status = putBit s.status 4 b) (hit : Bool) :
    Completed s (w.succeed hit) hit false 0 b := by
  have hkeyv : w.keyv = b := by rw [State.keyv, h, getLsbD_putBit_four]
  have hdone := completed_ok s w hit fun j h5 h8 => by rw [h, putBit_four_reserved _ _ j h5 h8]
  rwa [hkeyv] at hdone

/-- Settles O39: `Exec` of KEYCLR has no check, and every register that depends on the secret is written zero. -/
theorem keyclrZeroises : Obligations.KeyclrZeroises := by
  intro s
  have zero {n : Nat} (j : Fin n) : (zeros n)[j] = 0x00 := zeros_getElem n j j.isLt
  exact ⟨_, exec_of_ok (i := .keyclr) rfl, completed_of_putBit rfl false, rfl, zero, zero, zero, zero, zero⟩

/-! ### What keeps the secret -/

/-- `t` has the secret of `s`: neither `KEY` nor `KLEN` nor KEYV differs. -/
structure SecretKept (s t : State) : Prop where
  key : t.key = s.key
  klen : t.klen = s.klen
  keyv : t.keyv = s.keyv

theorem secretKept_refl (s : State) : SecretKept s s := ⟨rfl, rfl, rfl⟩

theorem secretKept_errorEntry (s : State) (e : ErrorCode) : SecretKept s (s.errorEntry e) :=
  ⟨rfl, rfl, State.errorEntry_keyv s e⟩

/-- No host write changes the secret (10_state.md R42). -/
theorem secretKept_busWrite (s : State) (a : Addr) (v : Byte) : SecretKept s (busWrite s a v) := by
  rcases busWrite_cases s a v with hw | ⟨it, i, -, -, hw⟩ <;> rw [hw]
  · exact secretKept_refl s
  · exact ⟨itemWrite_key s it i v, itemWrite_klen s it i v, itemWrite_keyv s it i v⟩

/-- No clock cycle changes the secret but a reset. -/
theorem secretKept_busCycle (s : State) {p : Pins} (hr : p.rst = false) : SecretKept s (busCycle s p) := by
  have hcore : SecretKept s (cycleCore s p) := by
    rw [cycleCore, if_neg (by simp [hr])]
    split
    · exact secretKept_busWrite s _ _
    · exact secretKept_refl s
  exact ⟨hcore.key, hcore.klen, hcore.keyv⟩

/-- No command but KEYLD and KEYCLR writes the secret, whatever its outcome (30_encoding.md R92). -/
theorem secretKept_complete {i : Instr} (s : State) (hkeyld : i ≠ .keyld) (hkeyclr : i ≠ .keyclr) :
    SecretKept s (s.complete (resultOf i s)) := by
  obtain ⟨hframe, -, -, hkeyv, -⟩ :=
    commandsReadAndWriteWhatR92Lists i s s _ _ (exec_eq_complete i s) (exec_eq_complete i s)
  refine ⟨?key, ?klen, hkeyv (.inr ⟨hkeyld, hkeyclr⟩)⟩
  all_goals cases i with
  | keyld => exact absurd rfl hkeyld
  | keyclr => exact absurd rfl hkeyclr
  | _ =>
    simp only [ChangesOnlyResults] at hframe
    rw [hframe]

/-- A completion keeps the secret, or it is KEYLD's with a length that fits, or KEYCLR's. -/
theorem complete_secret_cases (i : Instr) (s : State) :
    SecretKept s (s.complete (resultOf i s)) ∨ (i = .keyld ∧ s.dlen.toNat ≤ 64) ∨ i = .keyclr := by
  by_cases hkeyld : i = .keyld
  · subst hkeyld
    rcases Nat.lt_or_ge 64 s.dlen.toNat with hd | hd
    · left
      rw [resultOf, cmdKeyld_length hd]
      exact secretKept_errorEntry s .length
    · exact .inr (.inl ⟨rfl, hd⟩)
  · by_cases hkeyclr : i = .keyclr
    · exact .inr (.inr hkeyclr)
    · exact .inl (secretKept_complete s hkeyld hkeyclr)

/-- The engine's turn keeps the secret, or it completes a KEYLD with a length that fits, or a KEYCLR. -/
theorem engineTurn_secret_cases {s t : State} (h : engineTurn s = .next t) :
    SecretKept s t ∨
    (s.busy = true ∧ ((decode s.opc = .ok .keyld ∧ s.dlen.toNat ≤ 64) ∨ decode s.opc = .ok .keyclr)) := by
  rcases engineTurn_cases h with ⟨-, rfl⟩ | ⟨hb, i, hd, rfl⟩ | ⟨-, -, rfl⟩
  · exact .inl (secretKept_refl _)
  · rcases complete_secret_cases i s with hkept | ⟨rfl, hlen⟩ | rfl
    · exact .inl hkept
    · exact .inr ⟨hb, .inl ⟨hd, hlen⟩⟩
    · exact .inr ⟨hb, .inr hd⟩
  · exact .inl (secretKept_errorEntry s .illcmd)

/-- Settles O31: a step that is none of the listed three keeps the secret. -/
theorem secretLifetime : Obligations.SecretLifetime := by
  intro s t h hne
  have changed (q : List Event) : ¬ SecretKept { s with queue := q } t := fun ⟨hkey, hklen, hkeyv⟩ =>
    hne.elim (· hkey) (Or.elim · (· hklen) (· hkeyv))
  rcases step_cases h with ⟨hq, he⟩ | ⟨rest, hq, he⟩ | ⟨p, rest, hq, rfl⟩
  · obtain ⟨hb, hcmd⟩ := (engineTurn_secret_cases he).resolve_left (changed s.queue)
    exact .inl ⟨hb, .inl hq, hcmd⟩
  · obtain ⟨hb, hcmd⟩ := (engineTurn_secret_cases he).resolve_left (changed rest)
    exact .inl ⟨hb, .inr ⟨rest, hq⟩, hcmd⟩
  · refine .inr ⟨p, rest, hq, ?_⟩
    by_contra hr
    exact changed rest (secretKept_busCycle _ (Bool.eq_false_of_not_eq_true hr))

end Sys2Proof.Machine
end

section
/-! SUPPORT. The padding of SHA-1 (42_sha1_hmac.md R151). -/

namespace Sys2Proof.Machine

/-- The padded message is whole blocks, and at least one (R151). -/
theorem sha1Pad_length (m : List Byte) : (sha1Pad m).length = 64 * ((m.length + 8) / 64 + 1) := by
  simp only [sha1Pad, List.length_append, List.length_singleton, List.length_replicate, bytesBE_length]
  omega

/-- Settles O40: the model's number of zeros is the least one by arithmetic modulo 64. -/
theorem sha1PaddingShape : Obligations.Sha1PaddingShape := by
  intro m
  refine ⟨(119 - m.length % 64) % 64, rfl, ?congruent, fun y hy => ?least, sha1Pad_length m⟩
  all_goals omega

end Sys2Proof.Machine
end

section
/-! SUPPORT. The blocks of SHA-1, their words, and the message schedule (42_sha1_hmac.md R152, R154). -/

namespace Sys2Proof.Machine

/-! ### Blocks -/

theorem sha1Pad_blocks (m : List Byte) : 64 * ((sha1Pad m).length / 64) = (sha1Pad m).length := by
  rw [sha1Pad_length]
  omega

theorem drop_getD (l : List Byte) (n j : Nat) : (l.drop n).getD j 0 = l.getD (n + j) 0 := by
  rw [List.getD_eq_getElem?_getD, List.getElem?_drop, ← List.getD_eq_getElem?_getD]

theorem drop_take_getD (l : List Byte) (n : Nat) {k j : Nat} (h : j < k) :
    ((l.drop n).take k).getD j 0 = l.getD (n + j) 0 := by
  rw [List.getD_eq_getElem?_getD, List.getElem?_take_of_lt h, ← List.getD_eq_getElem?_getD, drop_getD]

/-! ### The words of a block -/

/-- The value of a front grows by one byte, as in R12. -/
theorem be_take_succ (l : List Byte) {n : Nat} (h : n < l.length) :
    be (l.take (n + 1)) = be (l.take n) * 256 + (l.getD n 0).toNat := by
  rw [List.take_succ_eq_append_getElem h, be_append_singleton, List.getD_eq_getElem _ _ h]

/-- The value of the first four bytes, byte by byte. -/
theorem be_take_four (l : List Byte) (h : 4 ≤ l.length) :
    be (l.take 4) = (l.getD 0 0).toNat * 2 ^ 24 + (l.getD 1 0).toNat * 2 ^ 16 + (l.getD 2 0).toNat * 2 ^ 8 +
      (l.getD 3 0).toNat := by
  have hnil : be (l.take 0) = 0 := rfl
  rw [be_take_succ l (by omega), be_take_succ l (by omega), be_take_succ l (by omega), be_take_succ l (by omega), hnil]
  omega

/-- A word of a whole block is its four bytes, the first the most significant (R152). -/
theorem blockWords_getD_bytes (b : List Byte) (hb : b.length = 64) {t : Nat} (ht : t < 16) :
    ((blockWords b).getD t 0).toNat =
      (b.getD (4 * t) 0).toNat * 2 ^ 24 + (b.getD (4 * t + 1) 0).toNat * 2 ^ 16 + (b.getD (4 * t + 2) 0).toNat * 2 ^ 8 +
        (b.getD (4 * t + 3) 0).toNat := by
  have hl : 4 ≤ (b.drop (4 * t)).length := by rw [List.length_drop]; omega
  rw [blockWords_getD_toNat b t ht, be_take_four _ hl]
  simp only [drop_getD, Nat.add_zero]

/-! ### The schedule -/

@[simp] theorem schedule_length (b : List Byte) : (schedule b).length = 80 := by simp [schedule, extendW_length]

/-- The first sixteen schedule words are the block's (R154): they are the oldest of the extended list. -/
theorem schedule_getD_block (b : List Byte) {t : Nat} (ht : t < 16) :
    (schedule b).getD t 0 = (blockWords b).getD t 0 := by
  have hold := extendW_getD_old 64 (blockWords b).reverse (15 - t)
  have hrev := reverse_getD (blockWords b) (15 - t) (by rw [blockWords_length]; omega)
  rw [blockWords_length, show 16 - 1 - (15 - t) = t by omega] at hrev
  rw [schedule_getD b t (by omega), show 79 - t = 64 + (15 - t) by omega, hold, hrev]

/-- Every later schedule word comes from four earlier ones (R154): they are older words of the extended list. -/
theorem schedule_getD_later (b : List Byte) {t : Nat} (h16 : 16 ≤ t) (h80 : t < 80) :
    (schedule b).getD t 0 =
      ((schedule b).getD (t - 3) 0 ^^^ (schedule b).getD (t - 8) 0 ^^^ (schedule b).getD (t - 14) 0 ^^^
        (schedule b).getD (t - 16) 0).rotateLeft 1 := by
  have earlier (k : Nat) (hk : k ≤ 16) :
      (schedule b).getD (t - k) 0 = (extendW 64 (blockWords b).reverse).getD (79 - t + k) 0 := by
    rw [schedule_getD b (t - k) (by omega), show 79 - (t - k) = 79 - t + k by omega]
  rw [schedule_getD b t h80, extendW_getD_new _ _ _ (by omega), earlier 3 (by decide), earlier 8 (by decide),
    earlier 14 (by decide), earlier 16 (by decide)]

/-- Settles O41: blocks and words are read off the padded bytes, the schedule off the extended list. -/
theorem sha1ScheduleRecurrence : Obligations.Sha1ScheduleRecurrence := by
  refine ⟨fun m => ⟨?_, fun i hi => ?_⟩, fun b hb t ht => ?_, fun b => ⟨schedule_length b,
    fun t ht => schedule_getD_block b ht, fun t h16 h80 => schedule_getD_later b h16 h80⟩⟩
  · rw [sha1Blocks_length, sha1Pad_blocks]
  · have hblocks := sha1Pad_blocks m
    rw [sha1Blocks_getD _ _ i hi]
    refine ⟨?_, fun j hj => drop_take_getD _ _ hj⟩
    rw [List.length_take, List.length_drop]
    omega
  · rw [schedule_getD_block b ht, blockWords_getD_bytes b hb ht]

end Sys2Proof.Machine
end

section
/-! SUPPORT. The rounds, the chaining and the digest of SHA-1 (42_sha1_hmac.md R153, R155, R156). -/

namespace Sys2Proof.Machine

theorem Five.eq_of_words {x y : Five} (ha : x.a = y.a) (hb : x.b = y.b) (hc : x.c = y.c) (hd : x.d = y.d)
    (he : x.e = y.e) : x = y := by
  cases x
  cases y
  exact (Five.mk.injEq ..).mpr ⟨ha, hb, hc, hd, he⟩

/-- A sequence that follows the eighty rounds ends in the words that the compression adds (R156). -/
theorem sha1Compress_of_rounds {h : Five} {b : List Byte} {r : Nat → Five} (h0 : r 0 = h)
    (hr : ∀ t, t < 80 → r (t + 1) = sha1Round t ((schedule b).getD t 0) (r t)) :
    sha1Compress h b = h.add (r 80) := by
  have hend : sha1Rounds 0 (schedule b) (r 0) = r (0 + (schedule b).length) := by
    refine sha1Rounds_eq _ r 0 fun t ht => ?_
    rw [Nat.zero_add]
    exact hr t (by rwa [schedule_length] at ht)
  rw [schedule_length, h0] at hend
  rw [sha1Compress, hend]

/-- A sequence that follows the blocks of the padded message ends in the chaining value that the digest shows (R156). -/
theorem sha1_of_chain {m : List Byte} {g : Nat → Five} (h0 : g 0 = sha1Init)
    (hg : ∀ i, i < (sha1Pad m).length / 64 → g (i + 1) = sha1Compress (g i) (((sha1Pad m).drop (64 * i)).take 64)) :
    sha1 m = (g ((sha1Pad m).length / 64)).bytes := by
  have hend := foldl_eq_iterate sha1Compress (sha1Blocks ((sha1Pad m).length / 64) (sha1Pad m)) g fun i hi => by
    have hn : i < (sha1Pad m).length / 64 := by rwa [sha1Blocks_length] at hi
    rw [← List.getD_eq_getElem _ [] hi, sha1Blocks_getD _ _ i hn]
    exact hg i hn
  rw [sha1Blocks_length, h0] at hend
  rw [sha1, hend]

/-- Settles O42: the written-out rounds, sum, initial value and digest are the model's own. -/
theorem sha1FollowsTheRounds : Obligations.Sha1FollowsTheRounds := by
  refine ⟨fun h b r h0 hr => ?_, fun m g h0 hg => sha1_of_chain h0 hg⟩
  refine sha1Compress_of_rounds h0 fun t ht => ?_
  obtain ⟨ha, hb, hc, hd, he⟩ := hr t ht
  exact Five.eq_of_words ha hb hc hd he

end Sys2Proof.Machine
end

section
/-! SUPPORT. The rendering of a code and TRUNC (43_hotp.md R181 to R186). -/

namespace Sys2Proof.Machine

/-! ### The rendering -/

/-- One step of reading a decimal number: a digit's character appended to what stands before it. -/
theorem div_ten_mul_add_digit (n k : Nat) :
    n / 10 ^ (k + 1) * 10 + (0x30 + n / 10 ^ k % 10 - 0x30) = n / 10 ^ k := by
  rw [Nat.pow_succ, ← Nat.div_div_eq_div_mul]
  omega

/-- Read back, digit by digit, the rendering of a number below 10^6 has that number's value (R184). -/
theorem decimalValue_digits6 {n : Nat} (h : n < 1000000) : decimalValue (digits6 n) = n := by
  have hfirst : 0 * 10 = n / 10 ^ 6 * 10 := by rw [Nat.div_eq_of_lt (show n < 10 ^ 6 from h)]
  rw [decimalValue, code_toList]
  simp only [List.foldl_cons, List.foldl_nil, digits6_getElem_toNat, Nat.reduceSub]
  rw [hfirst, div_ten_mul_add_digit n 5, div_ten_mul_add_digit n 4, div_ten_mul_add_digit n 3,
    div_ten_mul_add_digit n 2, div_ten_mul_add_digit n 1, div_ten_mul_add_digit n 0, Nat.pow_zero, Nat.div_one]

/-- Settles O49: the decimal value is a left inverse of the rendering. -/
theorem renderingIsDecimal : Obligations.RenderingIsDecimal := by
  refine ⟨fun n hn => ⟨digits6_getElem_toNat n, decimalValue_digits6 hn⟩, fun m n hm hn h => ?_⟩
  rw [← decimalValue_digits6 hm, h, decimalValue_digits6 hn]

/-! ### TRUNC -/

/-- The characters of a truncation have the code as their decimal value (R184), as the remainder is below 10^6. -/
theorem decimalValue_truncate (m : Vector Byte 20) :
    decimalValue (truncate m).digits = (BitVec.ofNat 32 (truncate m).code).toNat := by
  have hlt : (truncate m).bin.toNat % 1000000 < 1000000 := Nat.mod_lt _ (by decide)
  rw [coden_toNat]
  exact decimalValue_digits6 hlt

/-- Settles O46: `Exec` of TRUNC has no check, and every register it writes is a result of the truncation of `MAC`. -/
theorem truncTruncatesTheMac : Obligations.TruncTruncatesTheMac := by
  intro s
  exact ⟨_, exec_of_ok (i := .trunc) rfl, completed_of_status (s.putTruncation_status s.mac) false, rfl,
    truncOffset_toNat s.mac, binaryCode_toNat s.mac, coden_toNat s.mac, truncate_digit s.mac,
    decimalValue_truncate s.mac⟩

end Sys2Proof.Machine
end

section
/-! SUPPORT. The time counter, its bounds and the wrap of the window (44_totp.md R202, R203), and TDIV. -/

namespace Sys2Proof.Machine

/-! ### The time counter -/

/-- The time is thirty counters and a remainder (R202). -/
theorem toNat_eq_thirty_mul_timeCounter_add (t : Word64) : t.toNat = 30 * (timeCounter t).toNat + t.toNat % 30 := by
  rw [timeCounter_toNat, Nat.div_add_mod]

/-- The largest time bounds the counter (R202). -/
theorem timeCounter_le (t : Word64) : (timeCounter t).toNat ≤ 0x0888888888888888 := by
  have hlt := t.isLt
  rw [timeCounter_toNat]
  omega

/-- The bound is below 2^60, so the top four bits are 0 (R202). -/
theorem timeCounter_getLsbD_of_ge (t : Word64) {j : Nat} (hj : 60 ≤ j) : (timeCounter t).getLsbD j = false := by
  have hlt : (timeCounter t).toNat < 2 ^ 60 := (timeCounter_le t).trans_lt (by decide)
  rw [← BitVec.testBit_toNat]
  exact Nat.testBit_lt_two_pow (hlt.trans_le (Nat.pow_le_pow_right (by decide) hj))

theorem timeCounter_eq_zero_iff (t : Word64) : timeCounter t = 0 ↔ t.toNat ≤ 29 := by
  have hzero : timeCounter t = 0 ↔ t.toNat / 30 = 0 := by rw [BitVec.toNat_eq, timeCounter_toNat]; rfl
  rw [hzero]
  omega

/-- `Exec` of TDIV has no check, and writes the time counter alone (R201). -/
theorem exec_tdiv (s : State) :
    exec .tdiv s = .next (({ s with ctr := timeCounter s.time } : State).succeed false) :=
  exec_of_ok (i := .tdiv) rfl

/-- Settles O50: TDIV always completes, and what it writes is the counter with its quotient, remainder and bound. -/
theorem tdivDividesTheTime : Obligations.TdivDividesTheTime := by
  intro s
  have hstatus : ({ s with ctr := timeCounter s.time } : State).status = s.status := rfl
  exact ⟨_, exec_tdiv s, completed_of_status hstatus false, rfl,
    ⟨s.time.toNat % 30, Nat.le_of_lt_succ (Nat.mod_lt _ (by decide)), toNat_eq_thirty_mul_timeCounter_add s.time⟩,
    timeCounter_le s.time, fun _ => timeCounter_getLsbD_of_ge s.time⟩

/-! ### The window -/

/-- The counter below is one less modulo 2^64 (R203). -/
theorem word_sub_one_toNat (base : Word64) : (base - 1).toNat = (base.toNat + 2 ^ 64 - 1) % 2 ^ 64 := by
  have hcomm : 2 ^ 64 - 1 + base.toNat = base.toNat + 2 ^ 64 - 1 := by omega
  calc (base - 1).toNat = (2 ^ 64 - 1 + base.toNat) % 2 ^ 64 := BitVec.toNat_sub base 1
    _ = (base.toNat + 2 ^ 64 - 1) % 2 ^ 64 := by rw [hcomm]

/-- The counter below wraps at the first counter alone. -/
theorem word_sub_one_eq_allOnes_iff (base : Word64) : base - 1 = 0xFFFFFFFFFFFFFFFF ↔ base = 0 := by
  have hneg : (0xFFFFFFFFFFFFFFFF : Word64) = -1 := by decide
  rw [hneg]
  exact sub_eq_neg_self

/-- The counter above never wraps: the time counter is far below the largest word (R203). -/
theorem timeCounter_add_one_toNat (t : Word64) : (timeCounter t + 1).toNat = (timeCounter t).toNat + 1 := by
  have hle := timeCounter_le t
  exact BitVec.toNat_add_of_lt (show (timeCounter t).toNat + 1 < 2 ^ 64 by omega)

/-- Settles O51: the lower end wraps exactly at counter 0, which is the counter of the first 30 seconds; the upper end
never does. -/
theorem windowCounters_timeCounter : Obligations.WindowCounters := by
  intro t
  exact ⟨timeCounter t - 1, timeCounter t + 1, rfl, word_sub_one_toNat _, timeCounter_add_one_toNat t,
    (word_sub_one_eq_allOnes_iff _).trans (timeCounter_eq_zero_iff t)⟩

end Sys2Proof.Machine
end

section
/-! SUPPORT. The error entry (60_exceptions.md R226), the error each command reports (R221 to R227), and how long `ERR`,
`ERRCODE` and MATCH last (R229). -/

namespace Sys2Proof.Machine

/-! ### What a completion is -/

/-- Every completion, of a command or of an illegal byte, is an error entry or a completion without error, and the writes
that one carries keep `CTRL`. -/
theorem completion_cases {s t : State} (h : (∃ i, exec i s = .next t) ∨ execIllegal s = .next t) :
    (∃ e, t = s.errorEntry e) ∨ (∃ (w : State) (hit : Bool), t = w.succeed hit ∧ w.ctrl = s.ctrl) := by
  rcases h with ⟨i, hi⟩ | hill
  · obtain rfl := exec_eq_next hi
    cases hr : resultOf i s with
    | error e => exact .inl ⟨e, rfl⟩
    | ok w hit =>
      obtain ⟨-, hctrl, -⟩ := complete_frame i s
      rw [hr] at hctrl
      exact .inr ⟨w, hit, rfl, hctrl⟩
  · exact .inl ⟨.illcmd, (Host.Outcome.next.inj hill).symm⟩

/-- At an error entry DONE is set, so `irq` shows IEN (R226, R230). -/
@[simp] theorem State.errorEntry_irq (s : State) (e : ErrorCode) : (s.errorEntry e).irq = s.ien := by simp [State.irq]

/-- At a completion without error DONE is set, so `irq` shows IEN (R230). -/
@[simp] theorem State.succeed_irq (s : State) (hit : Bool) : (s.succeed hit).irq = s.ien := by simp [State.irq]

/-- Settles O20: a completion with ERR is an error entry. -/
theorem errorChangesOnlyStatus : Obligations.ErrorChangesOnlyStatus := by
  intro s t h herr
  rcases completion_cases h with ⟨e, rfl⟩ | ⟨w, hit, rfl, -⟩
  · exact ⟨completed_error s e, (errorCode_bounds e).1, rfl, State.errorEntry_irq s e⟩
  · rw [State.succeed_err] at herr
    exact absurd herr Bool.false_ne_true

/-! ### The checks of B32DEC -/

/-- A text of up to 104 characters decodes to more than 64 bytes exactly when it is 104 data symbols: a padded encoding of
65 bytes has no pad to end in (R222, R227). -/
theorem decoded_too_long_iff {t b : List Byte} (h : b32dec t = some b) (ht : t.length ≤ 104) :
    64 < b.length ↔ t.length = 104 ∧ t.getLastD 0 ≠ padChar := by
  obtain ⟨henc, hencp⟩ := encode_of_b32dec h
  have hlen := b32enc_length b
  by_cases hlast : t.getLastD 0 = padChar
  · refine iff_of_false (fun hlong => ?_) fun h => h.2 hlast
    have hplen := b32encp_length b
    rw [hencp hlast] at hplen
    have h65 : b.length = 65 := by omega
    have hunpadded : t = b32enc b := by
      rw [← hencp hlast, b32encp_eq, hlen, h65]
      exact List.append_nil _
    exact b32enc_getLastD_ne_pad b (hunpadded ▸ hlast)
  · rw [henc hlast] at hlen
    simp only [ne_eq, hlast, not_false_eq_true, and_true]
    omega

section B32dec
variable {s : State}

theorem text_length (h : s.tlen.toNat ≤ 104) : s.text.length = s.tlen.toNat := by
  rw [State.text, List.length_take, Vector.length_toList]
  omega

/-- The last character of a full text buffer. -/
theorem text_getLastD (h : s.tlen.toNat = 104) : s.text.getLastD 0 = s.tbuf[103] := by
  rw [State.text, h, List.take_of_length_le (by simp), List.getLastD_eq_getLast?, List.getLast?_eq_getElem?]
  simp

/-- The size check of B32DEC, read off `TBUF`. -/
theorem decoded_text_too_long_iff {b : List Byte} (h : s.tlen.toNat ≤ 104) (hd : b32dec s.text = some b) :
    64 < b.length ↔ s.tlen.toNat = 104 ∧ s.tbuf[103] ≠ 0x3D := by
  rw [decoded_too_long_iff hd (by rwa [text_length h]), text_length h]
  exact and_congr_right fun h104 => by rw [text_getLastD h104]; rfl

theorem cmdB32dec_rejected (h : s.tlen.toNat ≤ 104) (ha : ¬ AcceptedText s.text) : cmdB32dec s = .error .format :=
  cmdB32dec_format h (Option.eq_none_iff_forall_ne_some.2 fun b hb => ha ((acceptedText_iff _).2 ⟨b, hb⟩))

theorem cmdB32dec_symbols (h : s.tlen.toNat = 104) (ha : AcceptedText s.text) (hlast : s.tbuf[103] ≠ 0x3D) :
    cmdB32dec s = .error .length := by
  obtain ⟨b, hb⟩ := (acceptedText_iff _).1 ha
  exact cmdB32dec_length h.le hb ((decoded_text_too_long_iff h.le hb).2 ⟨h, hlast⟩)

theorem cmdB32dec_fits (h : s.tlen.toNat ≤ 104) (ha : AcceptedText s.text)
    (hfits : ¬ (s.tlen.toNat = 104 ∧ s.tbuf[103] ≠ 0x3D)) : ∃ w, cmdB32dec s = .ok w false := by
  obtain ⟨b, hb⟩ := (acceptedText_iff _).1 ha
  exact ⟨_, cmdB32dec_ok h hb (Nat.not_lt.1 (mt (decoded_text_too_long_iff h hb).1 hfits))⟩

end B32dec

/-! ### Which error -/

/-- The length check comes before what it guards. -/
theorem complete_withData_errcode (s : State) (k : CmdResult) :
    (s.complete (withData s k)).errcode = if 64 < s.dlen.toNat then 0x03 else (s.complete k).errcode := by
  unfold withData Config.dbufMax
  split <;> rfl

/-- The key check comes before what it guards. -/
theorem complete_withKey_errcode (s : State) (k : CmdResult) :
    (s.complete (withKey s k)).errcode = if s.keyv = false then 0x02 else (s.complete k).errcode := by
  unfold withKey
  cases s.keyv <;> rfl

/-- VALID checks the key, then the candidate. -/
theorem complete_cmdValid_errcode (s : State) : (s.complete (cmdValid s)).errcode =
    if s.keyv = false then 0x02
    else if s.clen = 6 ∧ ∀ j : Fin 6, 0x30 ≤ (s.cand.getD j 0).toNat ∧ (s.cand.getD j 0).toNat ≤ 0x39 then 0x00
    else 0x05 := by
  rw [cmdValid, complete_withKey_errcode]
  simp only [← wellFormedCandidate_iff]
  congr 1
  split <;> rfl

/-- B32DEC checks `TLEN`, then the format, then the size of the result. -/
theorem complete_cmdB32dec_errcode (s : State) :
    (104 < s.tlen.toNat → (s.complete (cmdB32dec s)).errcode = 0x03) ∧
    (s.tlen.toNat ≤ 104 → ¬ AcceptedText s.text → (s.complete (cmdB32dec s)).errcode = 0x04) ∧
    (s.tlen.toNat ≤ 104 → AcceptedText s.text → (s.complete (cmdB32dec s)).errcode =
      if s.tlen.toNat = 104 ∧ s.tbuf[103] ≠ 0x3D then 0x03 else 0x00) := by
  refine ⟨fun h => ?_, fun h ha => ?_, fun h ha => ?_⟩
  · rw [cmdB32dec_tlen h]; rfl
  · rw [cmdB32dec_rejected h ha]; rfl
  · split
    · rename_i hsym
      rw [cmdB32dec_symbols hsym.1 ha hsym.2]; rfl
    · rename_i hfits
      obtain ⟨w, hw⟩ := cmdB32dec_fits h ha hfits
      rw [hw]; rfl

/-- Settles O21: `ERRCODE` is that of the completion of `Exec`, check by check. -/
theorem errorPriority : Obligations.ErrorPriority := by
  intro s t
  refine ⟨fun h => ?illegal, fun h => ?data, fun h => ?b32dec, fun h => ?hmac, fun h => ?key, fun h => ?valid,
    fun h => ?unchecked⟩
  case illegal => exact congrArg State.errcode (Host.Outcome.next.inj h).symm
  case data =>
    rcases h with h | h | h | h <;> obtain rfl := exec_eq_next h <;> exact complete_withData_errcode s _
  case b32dec =>
    obtain rfl := exec_eq_next h
    exact complete_cmdB32dec_errcode s
  case hmac =>
    obtain rfl := exec_eq_next h
    rw [resultOf, cmdHmac, complete_withKey_errcode, complete_withData_errcode]
    rfl
  case key => rcases h with h | h <;> obtain rfl := exec_eq_next h <;> exact complete_withKey_errcode s _
  case valid =>
    obtain rfl := exec_eq_next h
    exact complete_cmdValid_errcode s
  case unchecked => rcases h with h | h | h <;> obtain rfl := exec_eq_next h <;> rfl

/-! ### Each failing check -/

/-- A command whose `Exec` raises an error completes with the status of that error, and changes nothing else. -/
theorem exec_error_frame {i : Instr} {s : State} {e : ErrorCode} (h : resultOf i s = .error e) :
    ∃ t, exec i s = .next t ∧ Completed s t false true e.code s.keyv ∧
      t = { s with status := t.status, errcode := t.errcode } :=
  ⟨_, exec_of_error h, completed_error s e, rfl⟩

/-- Without a key the commands that need one raise NOKEY (R221). -/
theorem resultOf_nokey {i : Instr} {s : State} (hk : s.keyv = false)
    (hi : i = .hmac ∨ i = .hotp ∨ i = .codes ∨ i = .valid) : resultOf i s = .error .nokey := by
  rcases hi with rfl | rfl | rfl | rfl
  · exact cmdHmac_nokey hk
  · exact cmdHotp_nokey hk
  · exact cmdCodes_nokey hk
  · exact cmdValid_nokey hk

/-- With too many data bytes the commands that read them raise LENGTH (R222). -/
theorem resultOf_length {i : Instr} {s : State} (hd : 64 < s.dlen.toNat)
    (hi : i = .b32enc ∨ i = .b32encp ∨ i = .keyld ∨ i = .sha1 ∨ (i = .hmac ∧ s.keyv = true)) :
    resultOf i s = .error .length := by
  rcases hi with rfl | rfl | rfl | rfl | ⟨rfl, hk⟩
  · exact cmdB32enc_length hd
  · exact cmdB32encp_length hd
  · exact cmdKeyld_length hd
  · exact cmdSha1_length hd
  · exact cmdHmac_length hk hd

/-- A candidate of another length, or with a character that is no digit, is not well formed (R224). -/
theorem wellFormedCandidate_eq_false {s : State}
    (h : s.clen ≠ 6 ∨ ∃ j : Fin 6, (s.cand.getD j 0).toNat < 0x30 ∨ 0x39 < (s.cand.getD j 0).toNat) :
    s.wellFormedCandidate = false := by
  refine Bool.eq_false_of_not_eq_true fun hw => ?_
  obtain ⟨hclen, hdigits⟩ := (wellFormedCandidate_iff s).1 hw
  rcases h with hne | ⟨j, hj⟩
  · exact hne hclen
  · have := hdigits j
    omega

/-- Settles O22: each failing check makes `Exec` raise its error, and an error is the error entry. -/
theorem failedChecksRaiseTheirError : Obligations.FailedChecksRaiseTheirError := by
  refine fun s => ⟨fun hk i hi => ?nokey, fun hd i hi => exec_error_frame (resultOf_length hd hi), fun h => ?length,
    fun h ha => exec_error_frame (i := .b32dec) (cmdB32dec_rejected h ha),
    fun hk h => exec_error_frame (i := .valid) (cmdValid_malformed hk (wellFormedCandidate_eq_false h))⟩
  case nokey =>
    have := exec_error_frame (resultOf_nokey hk hi)
    rwa [hk] at this
  case length =>
    refine exec_error_frame (i := .b32dec) (e := .length) ?_
    rcases h with htlen | ⟨htlen, ha, hlast⟩
    · exact cmdB32dec_tlen htlen
    · exact cmdB32dec_symbols htlen ha hlast

/-! ### How long the verdict of a command lasts -/

/-- `t` shows the verdict of `s`: neither ERR nor `ERRCODE` nor MATCH differs. -/
structure VerdictKept (s t : State) : Prop where
  err : t.err = s.err
  errcode : t.errcode = s.errcode
  matched : t.matched = s.matched

/-- The verdict is two bits of `STATUS`, and `ERRCODE`. -/
theorem verdictKept_of_status {s t : State} (hstatus : t.status = s.status) (herrcode : t.errcode = s.errcode) :
    VerdictKept s t :=
  ⟨by rw [State.err, State.err, hstatus], herrcode, by rw [State.matched, State.matched, hstatus]⟩

/-- An acknowledge keeps the verdict. -/
theorem verdictKept_of_ack {s t : State} {v : Byte} (hstatus : t.status = ackStatus s.status v)
    (herrcode : t.errcode = s.errcode) : VerdictKept s t where
  err := by rw [State.err, hstatus, getLsbD_ackStatus _ _ _ (by decide)]; rfl
  errcode := herrcode
  matched := by rw [State.matched, hstatus, getLsbD_ackStatus _ _ _ (by decide)]; rfl

/-- The engine's turn on an idle core does nothing. -/
theorem engineTurn_of_idle {s t : State} (hb : s.busy = false) (h : engineTurn s = .next t) : t = s := by
  rw [engineTurn, if_neg (by simp [hb])] at h
  exact (Host.Outcome.next.inj h).symm

/-- A step of an idle core that is no reset and no start keeps the verdict. -/
theorem step_idle_verdict {s t : State} (h : step s = .next t) (hb : s.busy = false) :
    VerdictKept s t ∨ ResetsNow s ∨ ∃ v, WritesNow s 0x000 v := by
  rcases step_cases h with ⟨-, he⟩ | ⟨rest, -, he⟩ | ⟨p, rest, hq, hcycle⟩
  · rw [engineTurn_of_idle hb he]
    exact .inl ⟨rfl, rfl, rfl⟩
  · rw [engineTurn_of_idle (s := { s with queue := rest }) hb he]
    exact .inl ⟨rfl, rfl, rfl⟩
  · rcases busCycle_status_cases hq hcycle with hreset | ⟨hs, he⟩ | ⟨v, hw, -, -⟩ | ⟨v, -, hs, he⟩
    · exact .inr (.inl hreset)
    · exact .inl (verdictKept_of_status hs he)
    · exact .inr (.inr ⟨v, hw⟩)
    · exact .inl (verdictKept_of_ack hs he)

/-- An acknowledge with bit 1 of the byte set clears DONE (10_state.md R25). -/
theorem busWrite_status_done {s : State} (hb : s.busy = false) {v : Byte} (hv : v.getLsbD 1 = true) :
    (busWrite s 0x001 v).done = false := by
  rw [busWrite_status hb, State.done, getLsbD_ackStatus _ _ _ (by decide), hv]
  simp

/-- Settles O23: a step that is no reset and no start keeps the verdict, and a start and a reset clear it. -/
theorem errorStatusLastsUntilTheNextStart : Obligations.ErrorStatusLastsUntilTheNextStart := by
  refine ⟨fun s t h hb hne => ?_, fun s v hb => ?_, fun s => ⟨s.resetCore_err, rfl, s.resetCore_matched⟩,
    fun s v hb => busWrite_busy hb 0x000 v⟩
  · refine (step_idle_verdict h hb).resolve_left fun hkept => ?_
    rcases hne with herr | hcode | hmatched
    · exact herr hkept.err
    · exact hcode hkept.errcode
    · exact hmatched hkept.matched
  · have hack : VerdictKept s (busWrite s 0x001 v) := by
      rw [busWrite_status hb]
      exact verdictKept_of_ack rfl rfl
    rw [busWrite_cmd hb]
    exact ⟨s.start_err v, rfl, s.start_matched v, s.start_done v, hack.err, hack.errcode, busWrite_status_done hb⟩

end Sys2Proof.Machine
end

section
/-! SUPPORT. The `irq` output (60_exceptions.md R230). -/

namespace Sys2Proof.Machine

theorem irq_of_not_done {s : State} (h : s.done = false) : s.irq = false := by rw [State.irq, h, Bool.and_false]

/-- Setting IEN makes `irq` show DONE at once. -/
theorem busWrite_ctrl_irq {s : State} (hb : s.busy = false) {v : Byte} (hv : v.getLsbD 0 = true) :
    (busWrite s 0x003 v).irq = s.done := by
  rw [busWrite_ctrl hb, State.irq, State.ien, ctrlWrite, getLsbD_putBit _ _ _ _ (by decide), if_pos rfl, hv]
  exact Bool.true_and _

/-- Settles O26: `irq` is defined as the conjunction, and falls wherever DONE does. -/
theorem irqFollowsEnableAndDone : Obligations.IrqFollowsEnableAndDone := by
  refine ⟨fun s => Bool.and_eq_true_iff, rfl, fun s t h => ?completion,
    fun s v hb => ⟨busWrite_ctrl_irq hb, fun hv => ?ack, ?start⟩, State.resetCore_irq⟩
  case completion =>
    rcases completion_cases h with ⟨e, rfl⟩ | ⟨w, hit, rfl, hctrl⟩
    · exact ⟨s.errorEntry_done e, s.errorEntry_irq e⟩
    · refine ⟨w.succeed_done hit, ?_⟩
      rw [State.succeed_irq, State.ien, hctrl, State.ien]
  case ack => exact irq_of_not_done (busWrite_status_done hb hv)
  case start =>
    rw [busWrite_cmd hb]
    exact irq_of_not_done (s.start_done v)

end Sys2Proof.Machine
end

section
/-! SUPPORT. The command byte: each command has its own, and no other byte is a command (30_encoding.md R94, R95). -/

namespace Sys2Proof

/-- Settles O1: the decoder's table, and the refusal of the bytes beside it by name. -/
theorem commandBytesDecode : Obligations.CommandBytesDecode :=
  ⟨rfl, rfl, rfl, rfl, rfl, rfl, rfl, rfl, rfl, rfl, rfl, rfl,
    decode_illegal 0x00 (by decide), decode_illegal 0x0D (by decide), decode_illegal 0xFF (by decide)⟩

/-- A command's byte is one of the twelve. -/
theorem encode_bounds (i : Instr) : 0x01 ≤ (encode i).toNat ∧ (encode i).toNat ≤ 0x0C := by cases i <;> decide

/-- Exactly the twelve bytes decode: any other is refused by name. -/
theorem decode_ok_iff (b : Byte) : (∃ i, decode b = .ok i) ↔ 0x01 ≤ b.toNat ∧ b.toNat ≤ 0x0C := by
  constructor
  · rintro ⟨i, hi⟩
    rw [← encode_of_decode hi]
    exact encode_bounds i
  · have key : ∀ b : Byte, 0x01 ≤ b.toNat ∧ b.toNat ≤ 0x0C → (decode b).toBool = true := by decide +kernel
    intro hb
    have hok := key b hb
    cases hd : decode b with
    | ok i => exact ⟨i, rfl⟩
    | error e =>
      rw [hd] at hok
      cases hok

/-- Settles O2: the encoder is the decoder's inverse, and its range is what decodes. -/
theorem decodeAndEncodeAgree : Obligations.DecodeAndEncodeAgree :=
  ⟨decode_encode, fun _ _ => encode_of_decode, decode_ok_iff⟩

end Sys2Proof
end

section
/-! SUPPORT. One step (30_encoding.md R93, 20_memory.md R61): which turn it takes, and what it keeps. -/

namespace Sys2Proof.Machine

/-! ### The invariants -/

/-- Settles O8: the invariants of what is stored go through `Exec`, those of a command's progress are set afresh. -/
theorem stepKeepsInvariants : Obligations.StepKeepsInvariants := fun _ _ h ht => h.step ht

/-- Settles O7: reset satisfies R44, and the turns to come are no part of it. -/
theorem resetSatisfiesInvariants : Obligations.ResetSatisfiesInvariants := fun _ => inv_reset.of_operands ..

/-! ### Which turn a step takes -/

/-- The engine's turn on a running command is `exec` of it (R93). -/
theorem engineTurn_of_legal {s : State} {i : Instr} (hb : s.busy = true) (hd : decode s.opc = .ok i) :
    engineTurn s = exec i s := by
  rw [engineTurn, if_pos hb, engineStep, hd]

/-- Where the engine is to move next, the step is the engine's turn, and takes nothing else off the queue. -/
theorem step_engineNext (s : State) : step s.engineNext = engineTurn s := by
  cases hq : s.queue with
  | nil => rw [State.engineNext, hq, step_of_nil hq]
  | cons e rest =>
    rw [State.engineNext, hq, step_of_engine rfl]
    exact congrArg (fun q => engineTurn { s with queue := q }) hq.symm

/-- Settles O3: both kinds of turn that complete a command are the engine's turn. -/
theorem stepRunsTheRunningCommand : Obligations.StepRunsTheRunningCommand := by
  refine fun s i hb hd => ⟨fun hq => ?_, fun rest hq => ?_⟩
  · rw [step_of_nil hq, engineTurn_of_legal hb hd]
  · rw [step_of_engine hq]
    exact engineTurn_of_legal hb hd

/-- Settles O4: the placed word is the command's byte, and its start leaves a busy core with the engine to move. -/
theorem placedCommandRunsNext : Obligations.PlacedCommandRunsNext := by
  intro s i
  rw [State.withFetchWord, tableByte_encode, step_engineNext]
  exact engineTurn_of_legal (s.start_busy _) (decode_encode i)

/-- Settles O5: the engine's turn and a cycle both answer a next state. -/
theorem everyStepAnswersNext : Obligations.EveryStepAnswersNext := by
  intro s
  match hq : s.queue with
  | [] => exact step_of_nil hq ▸ engineTurn_next s
  | .engine :: rest => exact step_of_engine hq ▸ engineTurn_next _
  | .cycle p :: rest => exact ⟨_, step_of_cycle hq⟩

/-- Settles O6: a cycle is `cycleCore` and `rdataPin`, read off pin by pin. -/
theorem cycleFollowsThePins : Obligations.CycleFollowsThePins := by
  intro s p rest hq
  rw [step_of_cycle hq]
  refine ⟨fun hr => ?reset, fun hr hsel hwe => ?write, fun hr hsel hwe => ?read, fun hr hsel => ?none⟩
  case reset => simp only [busCycle, cycleCore_of_rst _ hr, rdataPin, hr]; rfl
  case write => simp [busCycle, cycleCore, rdataPin, hr, hsel, hwe]
  case read => simp [busCycle, cycleCore, rdataPin, hr, hsel, hwe]; rfl
  case none => simp [busCycle, cycleCore, rdataPin, hr, hsel]

end Sys2Proof.Machine
end

section
/-! SUPPORT. A second equal write changes nothing (20_memory.md R71). -/

namespace Sys2Proof.Machine

/-- Writing the same byte of an item twice writes it once; only `CMD` does more than store it. -/
theorem itemWrite_twice (s : State) {it : Item} (i : Nat) (v : Byte) (h : it ≠ .cmd) :
    itemWrite (itemWrite s it i v) it i v = itemWrite s it i v := by
  cases it with
  | cmd => exact absurd rfl h
  | status => exact congrArg (fun x => { s with status := x }) (ackStatus_twice s.status v)
  | ctrl => exact congrArg (fun x => { s with ctrl := x }) (ctrlWrite_twice s.ctrl v)
  | time => exact congrArg (fun x => { s with time := x }) (setRegByte_twice s.time i v)
  | ctr => exact congrArg (fun x => { s with ctr := x }) (setRegByte_twice s.ctr i v)
  | cand => simp [itemWrite]
  | mac => simp [itemWrite]
  | dbuf => simp [itemWrite]
  | tbuf => simp [itemWrite]
  | _ => rfl

/-- Settles O16: where both writes are accepted they write the same byte of one item, which is not `CMD`. -/
theorem writesButToCmdAreIdempotent : Obligations.WritesButToCmdAreIdempotent := by
  intro s a v ha
  rcases busWrite_cases s a v with hw | ⟨it, i, -, hl, hw⟩
  · rw [hw, hw]
  · rcases busWrite_cases (busWrite s a v) a v with hagain | ⟨it', i', -, hl', hagain⟩
    · exact hagain
    · rw [hl] at hl'
      cases hl'
      have hne : it ≠ .cmd := fun hcmd => ha (eq_zero_of_locate_cmd (hcmd ▸ hl))
      rw [hagain, hw, itemWrite_twice s i v hne]

end Sys2Proof.Machine
end

section
/-! SUPPORT. The life of a command: its completion (30_encoding.md R93), the causes of every change of a flag of `STATUS`
(10_state.md R25), and why the moment of the completion does not matter (R99). -/

namespace Sys2Proof.Machine

/-! ### The completion -/

/-- Settles O19: an error entry and a completion without error, flag by flag, and the frame of both. -/
theorem everyCommandCompletes : Obligations.EveryCommandCompletes := by
  intro i s
  have hframe := complete_frame i s
  refine ⟨_, exec_eq_complete i s, ?_⟩
  rcases resultOf_cases i s with ⟨e, he⟩ | ⟨w, hit, hw, -, -, hhit, -⟩
  · rw [he] at hframe ⊢
    obtain ⟨hopc, hctrl, -, -, -, hqueue, hrdata⟩ := hframe
    obtain ⟨hne, hle⟩ := errorCode_bounds e
    exact ⟨s.errorEntry_busy e, s.errorEntry_done e, iff_of_true (s.errorEntry_err e) hne, hle,
      fun _ => s.errorEntry_matched e, fun hm => absurd ((s.errorEntry_matched e).symm.trans hm) Bool.false_ne_true,
      hopc, hctrl, hqueue, hrdata⟩
  · rw [hw] at hframe ⊢
    obtain ⟨hopc, hctrl, -, -, -, hqueue, hrdata⟩ := hframe
    exact ⟨w.succeed_busy hit, w.succeed_done hit, by simp, by simp,
      fun hne => (w.succeed_matched hit).trans (hhit hne), fun _ => w.succeed_err hit, hopc, hctrl, hqueue, hrdata⟩

/-- A completion keeps KEYV, or it is KEYLD's and sets it, or KEYCLR's and clears it (R92). -/
theorem complete_keyv_cases (i : Instr) (s : State) :
    (s.complete (resultOf i s)).keyv = s.keyv ∨
    (i = .keyld ∧ (s.complete (resultOf i s)).keyv = true) ∨
    (i = .keyclr ∧ (s.complete (resultOf i s)).keyv = false) := by
  rcases resultOf_cases i s with ⟨e, he⟩ | ⟨w, hit, hw, -, -, -, hstatus⟩
  · rw [he]
    exact .inl (s.errorEntry_keyv e)
  · have written {b : Bool} (h : w.status = putBit s.status 4 b) : (w.succeed hit).keyv = b := by
      rw [State.succeed_keyv, State.keyv, h, getLsbD_putBit_four]
    rw [hw]
    cases i with
    | keyld => exact .inr (.inl ⟨rfl, written hstatus⟩)
    | keyclr => exact .inr (.inr ⟨rfl, written hstatus⟩)
    | _ => exact .inl ((w.succeed_keyv hit).trans (keyv_of_status hstatus))

/-! ### The causes of a change of a flag -/

/-- The flags of `t` are those of `s`. -/
structure FlagsKept (s t : State) : Prop where
  busy : t.busy = s.busy
  done : t.done = s.done
  err : t.err = s.err
  matched : t.matched = s.matched
  keyv : t.keyv = s.keyv

/-- The flags of `t` are those that the completion of the command running in `s` leaves (R93). -/
structure FlagsCompleted (s t : State) : Prop where
  running : s.busy = true
  busy : t.busy = false
  done : t.done = true
  matched : t.matched = true → decode s.opc = .ok .valid
  keyv : t.keyv = s.keyv ∨ (decode s.opc = .ok .keyld ∧ t.keyv = true) ∨ (decode s.opc = .ok .keyclr ∧ t.keyv = false)

/-- The flags are bits of `STATUS`. -/
theorem flagsKept_of_status {s t : State} (h : t.status = s.status) : FlagsKept s t := by
  constructor
  case keyv => exact keyv_of_status h
  all_goals simp only [State.busy, State.done, State.err, State.matched, h]

/-- The engine's turn keeps the flags of an idle core, and completes the command of a busy one. -/
theorem engineTurn_flags {s t : State} (h : engineTurn s = .next t) : FlagsKept s t ∨ FlagsCompleted s t := by
  rcases engineTurn_cases h with ⟨-, rfl⟩ | ⟨hb, i, hd, rfl⟩ | ⟨hb, -, rfl⟩
  · exact .inl (flagsKept_of_status rfl)
  · obtain ⟨t, ht, hbusy, hdone, -, -, hmatched, -⟩ := everyCommandCompletes i s
    obtain rfl := exec_eq_next ht
    refine .inr ⟨hb, hbusy, hdone, fun hm => ?_, ?_⟩
    · by_contra hne
      exact absurd ((hmatched fun hi => hne (hi ▸ hd)).symm.trans hm) Bool.false_ne_true
    · rcases complete_keyv_cases i s with hkept | ⟨rfl, hset⟩ | ⟨rfl, hcleared⟩
      · exact .inl hkept
      · exact .inr (.inl ⟨hd, hset⟩)
      · exact .inr (.inr ⟨hd, hcleared⟩)
  · exact .inr ⟨hb, s.errorEntry_busy _, s.errorEntry_done _,
      fun hm => absurd ((s.errorEntry_matched _).symm.trans hm) Bool.false_ne_true, .inl (s.errorEntry_keyv _)⟩

/-- The flags after a reset are all 0. -/
theorem busCycle_flags_of_rst (s : State) {p : Pins} (hr : p.rst = true) :
    (busCycle s p).busy = false ∧ (busCycle s p).done = false ∧ (busCycle s p).err = false ∧
    (busCycle s p).matched = false ∧ (busCycle s p).keyv = false := by
  have hkept : FlagsKept s.resetCore (busCycle s p) := flagsKept_of_status (by rw [busCycle_status, cycleCore_of_rst s hr])
  simp [hkept.busy, hkept.done, hkept.err, hkept.matched, hkept.keyv]

/-- Everything a step can do to the flags: keep them, complete a command, reset, start a command, acknowledge. -/
theorem step_flags {s t : State} (h : step s = .next t) :
    FlagsKept s t ∨
    (CompletesNow s ∧ FlagsCompleted s t) ∨
    (ResetsNow s ∧ t.busy = false ∧ t.done = false ∧ t.err = false ∧ t.matched = false ∧ t.keyv = false) ∨
    (∃ v, WritesNow s 0x000 v ∧ FlagsKept (s.start v) t) ∨
    (∃ v, WritesNow s 0x001 v ∧ FlagsKept { s with status := ackStatus s.status v } t) := by
  rcases step_cases h with ⟨hq, he⟩ | ⟨rest, hq, he⟩ | ⟨p, rest, hq, ht⟩
  · rcases engineTurn_flags he with hkept | hcompleted
    · exact .inl hkept
    · exact .inr (.inl ⟨⟨hcompleted.running, .inl hq⟩, hcompleted⟩)
  · rcases engineTurn_flags he with ⟨hbusy, hdone, herr, hmatched, hkeyv⟩ | ⟨hrun, hbusy, hdone, hmatched, hkeyv⟩
    · exact .inl ⟨hbusy, hdone, herr, hmatched, hkeyv⟩
    · exact .inr (.inl ⟨⟨hrun, .inr ⟨rest, hq⟩⟩, ⟨hrun, hbusy, hdone, hmatched, hkeyv⟩⟩)
  · rcases busCycle_status_cases hq ht with ⟨p', rest', hq', hr⟩ | ⟨hs, -⟩ | ⟨v, hw, hs, -⟩ | ⟨v, hw, hs, -⟩
    · rw [hq] at hq'
      cases hq'
      exact .inr (.inr (.inl ⟨⟨p, rest, hq, hr⟩, ht ▸ busCycle_flags_of_rst _ hr⟩))
    · exact .inl (flagsKept_of_status hs)
    · exact .inr (.inr (.inr (.inl ⟨v, hw, flagsKept_of_status hs⟩)))
    · exact .inr (.inr (.inr (.inr ⟨v, hw, flagsKept_of_status hs⟩)))

/-- Settles O24: what each kind of step does to each flag, and R44 for what a busy core shows. -/
theorem statusBitsChangeOnlyForListedCauses : Obligations.StatusBitsChangeOnlyForListedCauses := by
  intro s t hinv h
  have hreserved : ∀ j, 5 ≤ j → j < 8 → t.status.getLsbD j = false :=
    fun j h5 _ => getLsbD_of_lt_32 (hinv.step h).reserved.1 j h5
  rcases step_flags h with hkept | ⟨hnow, hcompleted⟩ | ⟨hnow, hbusy, hdone, herr, hmatched, hkeyv⟩ | ⟨v, hw, hkept⟩ |
    ⟨v, hw, hkept⟩
  · refine ⟨?_, ?_, ?_, ?_, ?_, ?_, ?_, ?_, ?_, ?_, hreserved⟩
    all_goals simp +contextual [hkept.busy, hkept.done, hkept.err, hkept.matched, hkept.keyv]
  · obtain ⟨hdone, herr, hmatched, -⟩ := hinv.busyClear hcompleted.running
    refine ⟨?_, fun _ _ => .inl hnow, fun _ _ => hnow, ?_, fun _ _ => hnow, ?_,
      fun _ hm => ⟨hnow, hcompleted.matched hm⟩, ?_, fun h0 h1 => ⟨hnow, ?keyld⟩, fun h1 h0 => .inl ⟨hnow, ?keyclr⟩,
      hreserved⟩
    case keyld => simpa [h0, h1] using hcompleted.keyv
    case keyclr => simpa [h0, h1] using hcompleted.keyv
    all_goals simp [hcompleted.running, hdone, herr, hmatched]
  · refine ⟨?_, fun _ _ => .inr hnow, ?_, fun _ _ => .inr (.inr hnow), ?_, fun _ _ => .inr hnow, ?_,
      fun _ _ => .inr hnow, ?_, fun _ _ => .inr hnow, hreserved⟩
    all_goals simp [hbusy, hdone, herr, hmatched, hkeyv]
  · refine ⟨fun _ _ => ⟨v, hw⟩, ?_, ?_, fun _ _ => .inl ⟨v, hw⟩, ?_, fun _ _ => .inl ⟨v, hw⟩, ?_,
      fun _ _ => .inl ⟨v, hw⟩, ?_, ?_, hreserved⟩
    all_goals simp +contextual [hkept.busy, hkept.done, hkept.err, hkept.matched, hkept.keyv]
  · refine ⟨?_, ?_, ?_, fun h1 h0 => .inr (.inl ⟨v, hw, ?acknowledge⟩), ?_, ?_, ?_, ?_, ?_, ?_, hreserved⟩
    case acknowledge => simpa [hkept.done, ack_done, h1] using h0
    all_goals simp +contextual [hkept.busy, hkept.done, hkept.err, hkept.matched, hkept.keyv, ack_busy, ack_done,
      ack_err, ack_matched, ack_keyv]

/-! ### The moment of the completion -/

/-- A clock cycle leaves the turns still to come. -/
theorem cycleCore_queue (s : State) (p : Pins) : (cycleCore s p).queue = s.queue := by
  unfold cycleCore
  split
  · rfl
  · split
    · rcases busWrite_cases s p.addr p.wdata with hw | ⟨it, i, -, -, hw⟩ <;> rw [hw]
      exact itemWrite_queue s it i _
    · rfl

/-- Settles O27, by induction on the turns pending: the engine's turn ends the command, and after the last turn the engine
has the next one. -/
theorem startedCommandCompletes : Obligations.StartedCommandCompletes := by
  intro s hb
  generalize hq : s.queue = turns
  induction turns generalizing s with
  | nil =>
    obtain ⟨t, ht⟩ := engineTurn_next s
    exact ⟨1, by simp, t, (step_of_nil hq).trans ht, engineTurn_idle ht⟩
  | cons e rest ih =>
    cases e with
    | engine =>
      obtain ⟨t, ht⟩ := engineTurn_next { s with queue := rest }
      exact ⟨1, by simp, t, (step_of_engine hq).trans ht, engineTurn_idle ht⟩
    | cycle p =>
      cases ht : (busCycle { s with queue := rest } p).busy with
      | false => exact ⟨1, by simp, _, step_of_cycle hq, ht⟩
      | true =>
        obtain ⟨k, hk, hreach⟩ := ih _ ht (cycleCore_queue _ p)
        exact ⟨k + 1, by simpa using hk, _, step_of_cycle hq, hreach⟩

/-- The engine's step leaves the turns still to come. -/
theorem engineStep_queue {s t : State} (h : engineStep s = .next t) : t.queue = s.queue := by
  have hown : engineStep s = .next { t with queue := s.queue, rdata := s.rdata } := engineStep_own s s.queue s.rdata t h
  rw [hown] at h
  exact (congrArg State.queue (Host.Outcome.next.inj h)).symm

/-- Settles O28, by induction on the accesses: on a busy core each changes `rdata` alone, on which the completion does not
depend. -/
theorem completionTimeDoesNotMatter : Obligations.CompletionTimeDoesNotMatter := by
  intro s t ps hb hps h
  have waiting (r : Byte) : ReachesIn (ps.length + 1) { s with queue := ps.map Event.cycle ++ [.engine], rdata := r }
      fun u => ∃ r, u = { t with rdata := r } := by
    induction ps generalizing r with
    | nil =>
      have hturn : engineTurn { s with queue := [], rdata := r } = .next { t with queue := [], rdata := r } :=
        (if_pos hb).trans (engineStep_own { s with queue := [] } [] r t h)
      have hqueue : t.queue = [] := engineStep_queue h
      refine ⟨_, (step_of_engine rfl).trans hturn, r, ?_⟩
      rw [hqueue]
    | cons p ps ih =>
      have hcycle := busCycle_of_busy (s := { s with queue := ps.map Event.cycle ++ [.engine], rdata := r }) hb p
        (hps p (by simp))
      exact ⟨_, (step_of_cycle rfl).trans (congrArg _ hcycle), ih (fun q hq => hps q (by simp [hq])) _⟩
  exact waiting s.rdata

end Sys2Proof.Machine
end

section
/-! SUPPORT. What no command and no access reaches: the addresses outside a command's row of the map (10_state.md R20), and
`KEY` from the bus (R42). -/

namespace Sys2Proof.Machine

/-! ### The frame of a command, through the byte read -/

/-- The items the host can read that a command writes on success: its row of R92, without the status. -/
def writtenItems (i : Instr) : List Item :=
  match i with
  | .b32enc => [.tbuf, .tlen]
  | .b32encp => [.tbuf, .tlen]
  | .b32dec => [.dbuf, .dlen]
  | .keyld => [.klen]
  | .keyclr => [.klen, .mac, .offs, .bin, .coden, .code0, .code1, .code2]
  | .sha1 => [.mac]
  | .hmac => [.mac]
  | .trunc => [.offs, .bin, .coden, .code1]
  | .hotp => [.mac, .offs, .bin, .coden, .code1]
  | .tdiv => [.ctr]
  | .codes => [.ctr, .mac, .offs, .bin, .coden, .code0, .code1, .code2]
  | .valid => []

/-- Every byte of every other item but `STATUS` and `ERRCODE` is kept by whatever changes only a command's results. -/
theorem itemByte_of_changesOnlyResults {i : Instr} {s t : State} (h : ChangesOnlyResults i s t) {it : Item}
    (hit : it ∉ .status :: .errcode :: writtenItems i) (j : Nat) : itemByte t it j = itemByte s it j := by
  cases i <;>
    (simp only [ChangesOnlyResults] at h
     rw [h]
     cases it <;> first | rfl | exact absurd (by decide) hit)

/-- The addresses of the items a command writes are those the map gives it. -/
theorem commandWrites_of_locate {i : Instr} {a : Addr} {it : Item} {j : Nat} (hl : locate a = some (it, j))
    (hit : it ∈ .status :: .errcode :: writtenItems i) : a = 0x001 ∨ a = 0x002 ∨ CommandWrites i a := by
  have key : ∀ it ∈ .status :: .errcode :: writtenItems i, ∀ j < it.size,
      BitVec.ofNat 9 (it.base + j) = 0x001 ∨ BitVec.ofNat 9 (it.base + j) = 0x002 ∨
        CommandWrites i (BitVec.ofNat 9 (it.base + j)) := by cases i <;> decide +kernel
  obtain ⟨hbase, hlt⟩ := locate_some a _ hl
  have ha : BitVec.ofNat 9 (it.base + j) = a := by rw [← hbase, BitVec.ofNat_toNat, BitVec.setWidth_eq]
  exact ha ▸ key it hit j hlt

/-- Settles O30: an address outside the command's row shows nothing, or an item the command does not write. -/
theorem commandsLeaveOtherAddressesAlone : Obligations.CommandsLeaveOtherAddressesAlone := by
  intro i s t h a hstatus herrcode hwrites
  obtain rfl := exec_eq_next h
  cases hl : locate a with
  | none => rw [cellAt_of_unmapped hl, cellAt_of_unmapped hl]
  | some x =>
    rw [cellAt_of_locate hl, cellAt_of_locate hl]
    refine itemByte_of_changesOnlyResults (complete_changesOnlyResults i s) (fun hit => ?_) x.2
    rcases commandWrites_of_locate hl hit with ha | ha | ha
    · exact hstatus ha
    · exact herrcode ha
    · exact hwrites ha

/-! ### The bus and the key -/

section Key
variable (s : State) (k : Vector Byte 64)

/-- No item the host can read is a byte of `KEY`. -/
theorem itemByte_of_key (it : Item) (i : Nat) : itemByte { s with key := k } it i = itemByte s it i := by cases it <;> rfl

/-- No read shows a byte of `KEY`, idle or busy. -/
theorem busRead_of_key (a : Addr) : busRead { s with key := k } a = busRead s a := by
  have hcell : cellAt { s with key := k } a = cellAt s a := by
    cases hl : locate a with
    | none => rw [cellAt_of_unmapped hl, cellAt_of_unmapped hl]
    | some x => rw [cellAt_of_locate hl, cellAt_of_locate hl, itemByte_of_key]
  exact congrArg (fun c => if s.busy then if a = 0x000 then s.opc else if a = 0x001 then statusRead s.status else 0x00
    else c) hcell

/-- No item write depends on `KEY`. -/
theorem itemWrite_of_key (it : Item) (i : Nat) (v : Byte) :
    itemWrite { s with key := k } it i v = { itemWrite s it i v with key := k } := by cases it <;> rfl

/-- No write depends on `KEY`, idle or busy. -/
theorem busWrite_of_key (a : Addr) (v : Byte) : busWrite { s with key := k } a v = { busWrite s a v with key := k } := by
  cases hb : s.busy with
  | true => rw [busWrite_busy hb, busWrite_busy (s := { s with key := k }) hb]
  | false =>
    cases hl : locate a with
    | none => rw [busWrite_unmapped hl, busWrite_unmapped hl]
    | some x =>
      rw [busWrite_idle hb hl, busWrite_idle (s := { s with key := k }) hb hl, itemWrite_of_key]

/-- No clock cycle but a reset depends on `KEY`. -/
theorem cycleCore_of_key {p : Pins} (hr : p.rst = false) :
    cycleCore { s with key := k } p = { cycleCore s p with key := k } := by
  simp only [cycleCore, hr, Bool.false_eq_true, if_false]
  split
  · exact busWrite_of_key s k _ _
  · rfl

/-- The `rdata` pin does not depend on `KEY`. -/
theorem rdataPin_of_key (p : Pins) : rdataPin { s with key := k } p = rdataPin s p := by
  rw [rdataPin, rdataPin, busRead_of_key]

end Key

/-- Settles O32: reads and writes of every item, then the cycle. -/
theorem busNeitherReadsNorWritesTheKey : Obligations.BusNeitherReadsNorWritesTheKey := by
  intro s k p hr
  refine ⟨rdataPin_of_key s k p, ?_, (secretKept_busCycle s hr).key⟩
  rw [busCycle, cycleCore_of_key s k hr, rdataPin_of_key]
  rfl

end Sys2Proof.Machine
end

section
/-! SUPPORT. The Base32 commands on the buffers (40_base32.md R111 to R120): the encoders bit by bit, the decoder bit by
bit, and the one after the other. -/

namespace Sys2Proof.Machine

/-- A buffer filled from a sequence that fits shows the sequence, and 0x00 beyond it. -/
theorem fill_getD_of_le {n : Nat} {l : List Byte} (h : l.length ≤ n) (j : Nat) : (fill n l).getD j 0 = l.getD j 0 := by
  rw [fill_getD]
  split
  · rfl
  · exact (List.getD_eq_default _ _ (by omega)).symm

/-! ### The encoders -/

/-- What the two encoders write: the text, zeros after it, and its length (R118). -/
def State.withEncoding (s : State) (t : List Byte) : State := { s with tbuf := fill 104 t, tlen := BitVec.ofNat 8 t.length }

theorem withEncoding_status (s : State) (t : List Byte) : (s.withEncoding t).status = s.status := rfl

/-- The text of the buffer is the encoding again. -/
theorem withEncoding_text {s : State} {t : List Byte} (h : t.length ≤ 104) : (s.withEncoding t).text = t := by
  rw [State.text, State.withEncoding, length_toNat h, take_fill 104 t h]

section Encoders
variable {s : State} (h : s.dlen.toNat ≤ 64)
include h

theorem exec_b32enc : exec .b32enc s = .next ((s.withEncoding (b32enc s.data)).succeed false) :=
  exec_of_ok (i := .b32enc) (cmdB32enc_ok h)

theorem exec_b32encp : exec .b32encp s = .next ((s.withEncoding (b32encp s.data)).succeed false) :=
  exec_of_ok (i := .b32encp) (cmdB32encp_ok h)

theorem b32enc_data_length : (b32enc s.data).length = (8 * s.dlen.toNat + 4) / 5 := by
  rw [b32enc_length, data_length h]

theorem b32encp_data_length : (b32encp s.data).length = 8 * ((s.dlen.toNat + 4) / 5) := by
  rw [b32encp_length, data_length h]

theorem b32enc_data_fits : (b32enc s.data).length ≤ 104 := by
  rw [b32enc_data_length h]
  omega

theorem b32encp_data_fits : (b32encp s.data).length ≤ 104 := by
  rw [b32encp_data_length h]
  omega

end Encoders

theorem symbolsOf_getD_lt (b : List Byte) (j : Nat) : (symbolsOf b).getD j 0 < 32 := by
  rcases Nat.lt_or_ge j (symbolsOf b).length with hj | hj
  · rw [List.getD_eq_getElem _ _ hj]
    exact symbolsOf_lt _ (List.getElem_mem hj)
  · rw [List.getD_eq_default _ _ hj]
    decide

/-- Character `j` of an encoding is the letter of symbol `j`. -/
theorem b32enc_getD (b : List Byte) {j : Nat} (hj : j < (b32enc b).length) :
    (b32enc b).getD j 0 = alphabet.getD ((symbolsOf b).getD j 0) 0 := by
  rw [← symbolOf_eq_alphabet _ (symbolsOf_getD_lt b j)]
  simp only [b32enc_eq_map_symbolsOf, List.length_map] at hj ⊢
  rw [List.getD_eq_getElem _ _ (by simpa using hj), List.getElem_map, List.getD_eq_getElem _ _ hj]

/-- Symbol `j` of an encoding is bits `5j` to `5j + 4` of the data, zero beyond its end (R111). -/
theorem symbolsOf_testBit (b : List Byte) {j k : Nat} (hj : j < encodedLength b.length) (hk : k < 5) :
    ((symbolsOf b).getD j 0).testBit (4 - k) = bitAt b (5 * j + k) := by
  have hlen : 8 * b.length ≤ 5 * encodedLength b.length := by unfold encodedLength; omega
  rw [symbolsOf, groupsOf_testBit _ _ _ _ hj hk, Nat.testBit_shiftLeft]
  rcases Nat.lt_or_ge (5 * j + k) (8 * b.length) with hin | hout
  · rw [bitAt_eq_testBit b _ hin, decide_eq_true (by omega), Bool.true_and]
    congr 1
    omega
  · rw [bitAt_beyond b _ hout, decide_eq_false (by omega), Bool.false_and]

/-- Settles O33: character by character through the symbols of the encoding. -/
theorem b32encEncodesTheData : Obligations.B32encEncodesTheData := by
  intro s hd
  have hlen := b32enc_data_length hd
  have hfits := b32enc_data_fits hd
  have htlen := length_toNat hfits
  refine ⟨_, exec_b32enc hd, completed_of_status (withEncoding_status s _) false, rfl, htlen.trans hlen,
    fun j hj => ?symbols, fun j hj => ?zeros⟩
  case symbols =>
    have hj : j < (b32enc s.data).length := hj.trans_eq htlen
    refine ⟨_, symbolsOf_getD_lt s.data j, (fill_getD_of_le hfits j).trans (b32enc_getD s.data hj), fun k hk => ?_⟩
    exact symbolsOf_testBit s.data (hj.trans_eq (b32enc_length s.data)) hk
  case zeros =>
    have hj : (b32enc s.data).length ≤ j := htlen.symm.trans_le hj
    exact (fill_getD_of_le hfits j).trans (List.getD_eq_default _ _ hj)

/-- Settles O34: the padded encoding is the unpadded one and its pads. -/
theorem b32encpPadsTheEncoding : Obligations.B32encpPadsTheEncoding := by
  intro s hd
  have hfits := b32enc_data_fits hd
  have hpfits := b32encp_data_fits hd
  have hlen := length_toNat hfits
  have hplen := length_toNat hpfits
  refine ⟨_, _, exec_b32encp hd, exec_b32enc hd, completed_of_status (withEncoding_status s _) false, rfl,
    hplen.trans (b32encp_data_length hd), fun j hj => ?symbols, fun j hj hj' => ?pads, fun j hj => ?zeros⟩
  case symbols =>
    have hj : j < (b32enc s.data).length := hj.trans_eq hlen
    calc (fill 104 (b32encp s.data)).getD j 0 = (b32encp s.data).getD j 0 := fill_getD_of_le hpfits j
      _ = (b32enc s.data).getD j 0 := by rw [b32encp_eq, List.getD_append _ _ _ _ hj]
      _ = (fill 104 (b32enc s.data)).getD j 0 := (fill_getD_of_le hfits j).symm
  case pads =>
    have hj : (b32enc s.data).length ≤ j := hlen.symm.trans_le hj
    have hj' : j < (b32encp s.data).length := hj'.trans_eq hplen
    rw [b32encp_eq, List.length_append, List.length_replicate] at hj'
    calc (fill 104 (b32encp s.data)).getD j 0 = (b32encp s.data).getD j 0 := fill_getD_of_le hpfits j
      _ = padChar := by
        rw [b32encp_eq, List.getD_append_right _ _ _ _ hj, List.getD_replicate _ (by omega)]
  case zeros =>
    have hj : (b32encp s.data).length ≤ j := hplen.symm.trans_le hj
    exact (fill_getD_of_le hpfits j).trans (List.getD_eq_default _ _ hj)

/-! ### The decoder -/

/-- What B32DEC writes: the bytes, zeros after them, and their number (R120). -/
def State.withDecoding (s : State) (b : List Byte) : State := { s with dbuf := fill 64 b, dlen := BitVec.ofNat 8 b.length }

theorem withDecoding_status (s : State) (b : List Byte) : (s.withDecoding b).status = s.status := rfl

theorem exec_b32dec {s : State} {b : List Byte} (h : s.tlen.toNat ≤ 104) (hd : b32dec s.text = some b)
    (hb : b.length ≤ 64) : exec .b32dec s = .next ((s.withDecoding b).succeed false) :=
  exec_of_ok (i := .b32dec) (cmdB32dec_ok h hd hb)

/-- Where the decoder accepts data symbols and pads, it answers the bytes of the symbols' value. -/
theorem b32dec_of_accepted {vs : List Nat} {p : Nat} (hlt : ∀ v ∈ vs, v < 32)
    (ha : AcceptedText (vs.map symbolOf ++ List.replicate p padChar)) :
    b32dec (vs.map symbolOf ++ List.replicate p padChar) =
      some (bytesBE (groupsValue vs >>> (5 * vs.length % 8)) (5 * vs.length / 8)) := by
  obtain ⟨b, hb⟩ := (acceptedText_iff _).1 ha
  rw [b32dec_symbols p hlt] at hb ⊢
  split at hb
  · rename_i hok
    rw [if_pos hok]
  · cases hb

/-- Bit `k` of the decoded bytes is bit `k` of the symbols, five bits to a symbol (R115). -/
theorem bitAt_decoded {vs : List Nat} (hlt : ∀ v ∈ vs, v < 32) {k : Nat} (hk : k < 8 * (5 * vs.length / 8)) :
    bitAt (bytesBE (groupsValue vs >>> (5 * vs.length % 8)) (5 * vs.length / 8)) k =
      (vs.getD (k / 5) 0).testBit (4 - k % 5) := by
  rw [bitAt_eq_testBit _ _ (by rwa [bytesBE_length]), bytesBE_length, be_bytesBE, show 256 = 2 ^ 8 from rfl, ← pow_mul,
    Nat.testBit_mod_two_pow, decide_eq_true (by omega), Bool.true_and, Nat.testBit_shiftRight,
    ← groupsValue_testBit hlt k (by omega)]
  congr 1
  omega

/-- A bit of a buffer filled from a sequence that fits is the sequence's. -/
theorem bitAt_fill {n : Nat} {l : List Byte} (h : l.length ≤ n) (k : Nat) : bitAt (fill n l).toList k = bitAt l k := by
  have hbyte : (fill n l).toList.getD (k / 8) 0 = l.getD (k / 8) 0 := by
    rw [fill_toList_getD]
    split
    · rfl
    · exact (List.getD_eq_default _ _ (by omega)).symm
  rw [bitAt, bitAt, hbyte]

/-- Settles O35: the decoder's value of the symbols, bit by bit. -/
theorem b32decDecodesTheText : Obligations.B32decDecodesTheText := by
  intro s vs p htlen ha hlt htext hsize
  have htext : s.text = vs.map symbolOf ++ List.replicate p padChar := by rwa [map_alphabet hlt] at htext
  rw [htext] at ha
  have hdec := (congrArg b32dec htext).trans (b32dec_of_accepted hlt ha)
  generalize hb : bytesBE (groupsValue vs >>> (5 * vs.length % 8)) (5 * vs.length / 8) = b at hdec
  have hlen : b.length = 5 * vs.length / 8 := by rw [← hb, bytesBE_length]
  have hfits : b.length ≤ 64 := hlen.trans_le hsize
  have hdlen : (BitVec.ofNat 8 b.length).toNat = b.length := length_toNat (by omega)
  refine ⟨_, exec_b32dec htlen hdec hfits, completed_of_status (withDecoding_status s b) false, rfl,
    hdlen.trans hlen, fun k hk => ?bits, fun j hj => ?zeros⟩
  case bits =>
    have hk : k < 8 * (5 * vs.length / 8) := by
      rw [← hlen, ← hdlen]
      exact hk
    calc bitAt (fill 64 b).toList k = bitAt b k := bitAt_fill hfits k
      _ = (vs.getD (k / 5) 0).testBit (4 - k % 5) := by rw [← hb, bitAt_decoded hlt hk]
  case zeros =>
    have hj : b.length ≤ j := hdlen.symm.trans_le hj
    exact (fill_getD_of_le hfits j).trans (List.getD_eq_default _ _ hj)

/-! ### The round trip -/

/-- B32DEC on a text that encodes the data gives the data back. -/
theorem exec_b32dec_of_encoding {s t : State} (hd : s.dlen.toNat ≤ 64) (htlen : t.tlen.toNat ≤ 104)
    (htext : t.text = b32enc s.data ∨ t.text = b32encp s.data) :
    ∃ u, exec .b32dec t = .next u ∧ u.errcode = 0x00 ∧ u.dlen = s.dlen ∧
      (∀ j, j < s.dlen.toNat → u.dbuf.getD j 0 = s.dbuf.getD j 0) ∧
      (∀ j, s.dlen.toNat ≤ j → u.dbuf.getD j 0 = 0x00) := by
  have hlen := data_length hd
  have hdec : b32dec t.text = some s.data := (b32dec_eq_some_iff _ _).2 htext
  have hbuf (j : Nat) : (fill 64 s.data).getD j 0 = if j < s.dlen.toNat then s.dbuf.getD j 0 else 0 := by
    rw [fill_getD_of_le (by omega), State.data, take_getD]
  refine ⟨_, exec_b32dec htlen hdec (by omega), rfl, ?dlen, fun j hj => (hbuf j).trans (if_pos hj),
    fun j hj => (hbuf j).trans (if_neg (Nat.not_lt.2 hj))⟩
  case dlen =>
    show BitVec.ofNat 8 s.data.length = s.dlen
    rw [hlen, BitVec.ofNat_toNat, BitVec.setWidth_eq]

/-- Settles O37: both encoders leave an encoding of the data as the text, and the decoder answers the data on it. -/
theorem encodeThenDecodeRestoresTheData : Obligations.EncodeThenDecodeRestoresTheData := by
  intro s hd t h
  have restored {e : List Byte} (hfits : e.length ≤ 104) (he : e = b32enc s.data ∨ e = b32encp s.data) :=
    have htext : (s.withEncoding e).text = e := withEncoding_text hfits
    exec_b32dec_of_encoding (t := (s.withEncoding e).succeed false) hd ((length_toNat hfits).trans_le hfits)
      (he.imp htext.trans htext.trans)
  rcases h with h | h
  · rw [exec_b32enc hd] at h
    cases h
    exact restored (b32enc_data_fits hd) (.inl rfl)
  · rw [exec_b32encp hd] at h
    cases h
    exact restored (b32encp_data_fits hd) (.inr rfl)

end Sys2Proof.Machine
end

section
/-! SUPPORT. The commands over the data, the secret and `MAC`: KEYLD (41_key.md R140), SHA1, HMAC and what a zero-filled
key means (42_sha1_hmac.md R160 to R163). -/

namespace Sys2Proof.Machine

/-! ### KEYLD -/

/-- A buffer filled from the data shows the data, and 0x00 beyond it. -/
theorem fill_data_getD {s : State} (h : s.dlen.toNat ≤ 64) (j : Nat) :
    (fill 64 s.data).getD j 0 = if j < s.dlen.toNat then s.dbuf.getD j 0 else 0 := by
  rw [fill_getD_of_le (by rwa [data_length h]), State.data, take_getD]

/-- What KEYLD writes (R140). -/
def State.withLoadedKey (s : State) : State :=
  { s with key := fill 64 s.data, klen := s.dlen, status := putBit s.status 4 true }

/-- Settles O38: the key store is filled from the data, and KEYV is written. -/
theorem keyldLoadsTheData : Obligations.KeyldLoadsTheData := by
  intro s hd
  have hstatus : s.withLoadedKey.status = putBit s.status 4 true := rfl
  exact ⟨s.withLoadedKey.succeed false, exec_of_ok (i := .keyld) (cmdKeyld_ok hd), completed_of_putBit hstatus false, rfl,
    rfl, fun j hj => (fill_data_getD hd j).trans (if_pos hj),
    fun j hj => (fill_data_getD hd j).trans (if_neg (Nat.not_lt.2 hj))⟩

/-! ### SHA1 and HMAC -/

/-- What SHA1 and HMAC write: a digest (R162, R163). -/
def State.withMac (s : State) (m : Vector Byte 20) : State := { s with mac := m }

theorem withMac_status (s : State) (m : Vector Byte 20) : (s.withMac m).status = s.status := rfl

/-- The completion changes `MAC` and the status alone, whatever the digest. -/
theorem withMac_frame (s : State) (m : Vector Byte 20) : ChangesOnlyResults .sha1 s ((s.withMac m).succeed false) := rfl

theorem exec_sha1 {s : State} (h : s.dlen.toNat ≤ 64) :
    exec .sha1 s = .next ((s.withMac (fill 20 (sha1 s.data))).succeed false) :=
  exec_of_ok (i := .sha1) (cmdSha1_ok h)

theorem exec_hmac {s : State} (hk : s.keyv = true) (h : s.dlen.toNat ≤ 64) :
    exec .hmac s = .next ((s.withMac (fill 20 (hmacSha1 s.secret s.data))).succeed false) :=
  exec_of_ok (i := .hmac) (cmdHmac_ok hk h)

/-- Settles O43: a digest is as long as `MAC`. -/
theorem sha1DigestsTheData : Obligations.Sha1DigestsTheData := by
  intro s hd
  exact ⟨_, exec_sha1 hd, completed_of_status (withMac_status s _) false, withMac_frame s _,
    fill_toList 20 _ (sha1_length _)⟩

/-- Zero bytes at the end of a key are part of its zero filling (R160). -/
theorem keyPad_append_zeros (x : Byte) (k : List Byte) {z : Nat} (h : k.length + z ≤ 64) :
    keyPad x (k ++ List.replicate z 0x00) = keyPad x k := by
  have hz : z + (64 - (k.length + z)) = 64 - k.length := by omega
  rw [keyPad, keyPad, List.length_append, List.length_replicate, List.append_assoc, List.replicate_append_replicate, hz]

/-- Settles O45: HMAC sees the key zero-filled alone. -/
theorem trailingZeroKeyBytesDoNotMatter : Obligations.TrailingZeroKeyBytesDoNotMatter := by
  intro k m z h
  rw [hmacSha1, hmacSha1, keyPad_append_zeros _ k h, keyPad_append_zeros _ k h]

/-- Where the key store is zero beyond `KLEN`, all of `KEY` is the secret and zero bytes. -/
theorem key_eq_secret_append_zeros {s : State} (h : ∀ i : Fin 64, s.klen.toNat ≤ i.val → s.key[i] = 0) :
    s.key.toList = s.secret ++ List.replicate (64 - s.klen.toNat) 0x00 := by
  have hzeros : s.key.toList.drop s.klen.toNat = List.replicate (64 - s.klen.toNat) 0x00 := by
    refine List.eq_replicate_iff.2 ⟨by simp, fun b hb => ?_⟩
    obtain ⟨i, hi, rfl⟩ := List.mem_iff_getElem.1 hb
    have hi : i < 64 - s.klen.toNat := by simpa using hi
    simpa using h ⟨s.klen.toNat + i, by omega⟩ (by simp)
  rw [← hzeros, State.secret, List.take_append_drop]

/-- Where R44 holds, the padded key is all 64 bytes of `KEY` with the pad byte (R160). -/
theorem keyPad_secret {s : State} (h : Inv s) (x : Byte) : keyPad x s.secret = s.key.toList.map (· ^^^ x) := by
  obtain ⟨hklen, hzeros, -⟩ := h.keyStore
  have hlen : s.secret.length = s.klen.toNat := by
    rw [State.secret, List.length_take, Vector.length_toList]
    omega
  rw [key_eq_secret_append_zeros hzeros, keyPad, hlen]

/-- Settles O44: under R44 the zero-filled secret is the key store itself. -/
theorem hmacAuthenticatesTheData : Obligations.HmacAuthenticatesTheData := by
  intro s hk hd
  refine ⟨_, exec_hmac hk hd, completed_of_status (withMac_status s _) false, withMac_frame s _, fun hinv => ?_⟩
  calc (fill 20 (hmacSha1 s.secret s.data)).toList = hmacSha1 s.secret s.data := fill_toList 20 _ (hmacSha1_length _ _)
    _ = _ := by rw [hmacSha1, keyPad_secret hinv, keyPad_secret hinv]

end Sys2Proof.Machine
end

section
/-! SUPPORT. HOTP (43_hotp.md R187), CODES and VALID (44_totp.md R205 to R210): what each leaves, and how one is made of the
others. -/

namespace Sys2Proof.Machine

/-! ### HOTP -/

/-- What HOTP writes for a counter (R187). -/
def State.withHotp (s : State) (c : Word64) : State :=
  { s with mac := counterMac s.secret c }.putTruncation (counterMac s.secret c)

theorem withHotp_status (s : State) (c : Word64) : (s.withHotp c).status = s.status := rfl

theorem exec_hotp {s : State} (hk : s.keyv = true) : exec .hotp s = .next ((s.withHotp s.ctr).succeed false) :=
  exec_hotp_of_keyv hk

theorem exec_trunc (s : State) : exec .trunc s = .next ((s.putTruncation s.mac).succeed false) :=
  exec_of_ok (i := .trunc) rfl

theorem counterMac_toList (k : List Byte) (c : Word64) : (counterMac k c).toList = hmacSha1 k (bytesBE c.toNat 8) :=
  fill_toList 20 _ (hmacSha1_length k _)

/-- Settles O47: HOTP writes the MAC of the counter and its truncation, which is what TRUNC computes from it. -/
theorem hotpDerivesTheCode : Obligations.HotpDerivesTheCode := fun s hk =>
  ⟨_, _, exec_hotp hk, completed_of_status (withHotp_status s s.ctr) false, rfl, counterMac_toList s.secret s.ctr,
    exec_trunc _, rfl, rfl, rfl, rfl⟩

/-- The data is the packed counter where the buffer shows its eight bytes (R180). -/
theorem data_eq_pack64 {s : State} (hd : s.dlen = 8)
    (h : ∀ j, j < 8 → s.dbuf.getD j 0 = BitVec.ofNat 8 (s.ctr.toNat / 256 ^ (7 - j))) : s.data = pack64 s.ctr := by
  rw [State.data, hd, pack64, bytesBE_eq_div]
  apply List.ext_getElem
  · simp
  · intro j hj hj'
    have hj : j < 8 := by simpa using hj'
    have hbyte := h j hj
    rw [vector_getD_lt _ _ _ (by omega)] at hbyte
    simpa using hbyte

/-- A second completion overwrites the status of the first. -/
theorem succeed_putTruncation_succeed (s : State) (m : Vector Byte 20) :
    ((s.succeed false).putTruncation m).succeed false = (s.putTruncation m).succeed false := by
  have hstatus := completionStatus_twice false false false false s.status
  exact congrArg (fun x => { (s.putTruncation m).succeed false with status := x }) hstatus

/-- Settles O48: with the packed counter as data HMAC writes HOTP's MAC, and TRUNC truncates it. -/
theorem hmacThenTruncIsHotp : Obligations.HmacThenTruncIsHotp := by
  intro s hk hd hdbuf
  have hlen : s.dlen.toNat ≤ 64 := by rw [hd]; decide
  have hhmac := exec_hmac hk hlen
  rw [data_eq_pack64 hd hdbuf] at hhmac
  refine ⟨_, _, hhmac, exec_trunc _, ?_⟩
  rw [exec_hotp hk]
  exact congrArg _ (succeed_putTruncation_succeed (s.withMac (counterMac s.secret s.ctr)) _).symm

/-! ### CODES -/

/-- What CODES writes (R205): HOTP's registers for the time counter, that counter, and the codes beside it. -/
def State.withWindow (s : State) : State :=
  { s.withHotp (timeCounter s.time) with
    ctr := timeCounter s.time
    code0 := hotp s.secret (timeCounter s.time - 1)
    code2 := hotp s.secret (timeCounter s.time + 1) }

theorem withWindow_status (s : State) : s.withWindow.status = s.status := rfl

theorem exec_codes {s : State} (hk : s.keyv = true) : exec .codes s = .next (s.withWindow.succeed false) :=
  exec_codes_of_keyv hk

/-- Settles O52: each of the three codes is HOTP's for its counter. -/
theorem codesShowsTheWindow : Obligations.CodesShowsTheWindow := by
  intro s hk
  have hotpAt (c : Word64) : exec .hotp { s with ctr := c } = .next ((State.withHotp { s with ctr := c } c).succeed false) :=
    exec_hotp (s := { s with ctr := c }) hk
  exact ⟨_, _, _, _, exec_codes hk, completed_of_status (withWindow_status s) false, rfl, timeCounter_toNat s.time,
    hotpAt _, hotpAt _, hotpAt _, rfl, rfl, rfl, rfl, rfl, rfl, rfl⟩

/-- Settles O53: TDIV leaves the time counter in `CTR`, so HOTP's registers are those of CODES. -/
theorem tdivThenHotpIsCodes : Obligations.TdivThenHotpIsCodes := by
  intro s hk
  have hkeyv : (({ s with ctr := timeCounter s.time } : State).succeed false).keyv = true := (State.succeed_keyv _ _).trans hk
  refine ⟨_, _, _, exec_tdiv s, exec_hotp hkeyv, exec_codes hk, ?_⟩
  have hstatus := completionStatus_twice false false false false s.status
  exact congrArg (fun x => { s.withWindow.succeed false with status := x }) hstatus.symm

/-! ### VALID -/

/-- VALID's match is equality with a code that CODES leaves for the same secret and time (R209). -/
theorem candidateMatches_iff_window (s : State) : s.candidateMatches = true ↔
    (∀ j : Fin 6, s.cand.getD j 0 = s.withWindow.code0[j]) ∨ (∀ j : Fin 6, s.cand.getD j 0 = s.withWindow.code1[j]) ∨
      (∀ j : Fin 6, s.cand.getD j 0 = s.withWindow.code2[j]) := by
  rw [candidateMatches_iff, eq6_iff, eq6_iff, eq6_iff]
  rfl

/-- Settles O54: a well-formed candidate passes both checks, and the match is the comparison with the window. -/
theorem validAcceptsExactlyTheWindow : Obligations.ValidAcceptsExactlyTheWindow := by
  intro s hk hclen hdigits
  have hvalid := exec_valid_of_keyv hk ((wellFormedCandidate_iff s).2 ⟨hclen, hdigits⟩)
  have hmatched : (s.succeed s.candidateMatches).matched = s.candidateMatches := s.succeed_matched _
  refine ⟨_, _, hvalid, exec_codes hk, ?_, rfl, ?_⟩
  · rw [hmatched]
    exact completed_of_status rfl _
  · rw [hmatched]
    exact candidateMatches_iff_window s

/-- Settles O55: the two failing checks of VALID. -/
theorem validRejectsByName : Obligations.ValidRejectsByName := by
  refine fun s => ⟨fun hk => ?nokey, fun hk h => ?malformed⟩
  case nokey => exact exec_error_frame (i := .valid) (cmdValid_nokey hk)
  case malformed => exact exec_error_frame (i := .valid) (cmdValid_malformed hk (wellFormedCandidate_eq_false h))

/-- The characters of each code that CODES leaves are digits (R184). -/
theorem hotp_digit (k : List Byte) (c : Word64) (j : Fin 6) :
    0x30 ≤ (hotp k c)[j].toNat ∧ (hotp k c)[j].toNat ≤ 0x39 := truncate_digit (counterMac k c) j

/-- A candidate of six characters that equals a rendered code is well formed (R207). -/
theorem wellFormedCandidate_of_eq_hotp {s : State} {k : List Byte} {c : Word64} (hclen : s.clen = 6)
    (h : ∀ j : Fin 6, s.cand.getD j 0 = (hotp k c)[j]) : s.wellFormedCandidate = true :=
  (wellFormedCandidate_iff s).2 ⟨hclen, fun j => h j ▸ hotp_digit k c j⟩

/-- Settles O56: what CODES shows depends on the secret and the time alone, and is six digits. -/
theorem validAcceptsWhatCodesShows : Obligations.ValidAcceptsWhatCodesShows := by
  intro s w u hk hw hkeyv hklen hkey htime hclen hshown
  rw [exec_codes hk] at hw
  cases hw
  have hsecret : s.secret = u.secret := secret_congr hklen.symm hkey.symm
  have hwf : u.wellFormedCandidate = true := by
    rcases hshown with h | h | h <;> exact wellFormedCandidate_of_eq_hotp hclen h
  have hmatch : u.candidateMatches = true := by
    rw [candidateMatches_iff, eq6_iff, eq6_iff, eq6_iff, ← hsecret, htime]
    exact hshown
  refine ⟨_, exec_valid_of_keyv (hkeyv.trans hk) hwf, ?_, State.succeed_err _ _, rfl⟩
  rw [State.succeed_matched, hmatch]

end Sys2Proof.Machine
end
